-- ==== Sys2Proof/Word.lean ====
section
/-! DEFINITION. The bit-vector types the spec's words and registers have. -/

namespace Sys2Proof

/-- A command word or a response word (00_scope.md R7, `CMD_W`). -/
abbrev Word := BitVec 32

/-- A parameter register or the `DATA` and `VALUE` fields (10_state.md R22). -/
abbrev Half := BitVec 16

/-- A frequency in Hz, 0 meaning silence (00_scope.md R7, `FREQ_W`; 30_encoding.md R84). -/
abbrev Freq := BitVec 16

/-- A count of ticks as the parameter file holds it (00_scope.md R7, `TICK_W`). -/
abbrev Ticks := BitVec 16

/-- A message byte, an opcode or a parameter index (30_encoding.md R81). -/
abbrev Byte := BitVec 8

end Sys2Proof
end

