-- ==== Sys2Proof/Syntax.lean ====
section
/-! DEFINITION. What crosses the ports, as abstract syntax: the command set TFMS-1, one constructor of
`Instr` for each row of the opcode table (30_encoding.md R86), with the operation and format names of
R81, and the actuator event (R84). -/

namespace Sys2Proof

/-- A command with its operands (30_encoding.md R86). -/
inductive Instr where
  /-- PSET: write one parameter register (40_parameters.md R110). -/
  | pset (idx : Byte) (value : Half)
  /-- PGET: read one parameter register (40_parameters.md R111). -/
  | pget (idx : Byte)
  /-- CREATE: make the engine from the shadow parameters (42_tone_engine.md R130). -/
  | create
  /-- XMIT: offer one byte for transmission (42_tone_engine.md R133). -/
  | xmit (byte : Byte)
  /-- ADV: one tick of the engine (42_tone_engine.md R134). -/
  | adv
  /-- QTX: is a transmission active (42_tone_engine.md R145). -/
  | qtx
  /-- STOP: forced stop (42_tone_engine.md R146). -/
  | stop
  /-- DESTROY: destroy the engine (42_tone_engine.md R148). -/
  | destroy
  /-- BMSG: set the shared message (43_broadcaster.md R174). -/
  | bmsg (byte : Byte)
  /-- BREQ: latch a broadcast request (43_broadcaster.md R175). -/
  | breq
  /-- BTICK: one tick of the broadcaster (43_broadcaster.md R176). -/
  | btick
  /-- IREQ: latch a beacon request (44_beacon.md R192). -/
  | ireq
  /-- ITICK: one tick of the beacon (44_beacon.md R193). -/
  | itick
  deriving DecidableEq, Repr

/-- The thirteen operations without their operands: the rows of R86. -/
inductive Op where
  | pset | pget | create | xmit | adv | qtx | stop | destroy | bmsg | breq | btick | ireq | itick
  deriving DecidableEq, Repr

/-- The four command formats (30_encoding.md R81). -/
inductive Format where
  /-- No operand. -/
  | n
  /-- One byte. -/
  | b
  /-- Parameter write. -/
  | p
  /-- Parameter read. -/
  | r
  deriving DecidableEq, Repr

/-- The row of R86 a command stands in. -/
def Instr.op : Instr → Op
  | .pset _ _ => .pset
  | .pget _ => .pget
  | .create => .create
  | .xmit _ => .xmit
  | .adv => .adv
  | .qtx => .qtx
  | .stop => .stop
  | .destroy => .destroy
  | .bmsg _ => .bmsg
  | .breq => .breq
  | .btick => .btick
  | .ireq => .ireq
  | .itick => .itick

/-! ### The actuator event (30_encoding.md R84) -/

/-- The unit an actuator event comes from; code 3 is never produced. -/
inductive ActSrc where
  | eng | bc | id
  deriving DecidableEq, Repr

/-- An actuator event `Act(src, ch, freq)`: the source's `setFrequency` on one actuator. -/
structure ActEvent where
  src  : ActSrc
  ch   : BitVec 4
  freq : Freq
  deriving DecidableEq, Repr

end Sys2Proof
end

