-- ==== Sys2Proof/Config.lean ====
section
/-! DEFINITION. The implementation parameters of 00_scope.md R7, and the free values: constants
without a body, for what the spec leaves open. -/

namespace Sys2Proof.Config

/-- The implementation parameters (00_scope.md R7), which a step takes (R13, R14): `execFor`, `stepFor` and
`decodeFor` take such a record. `TICK_PERIOD` and `ACT_WIRING` are OPEN and not
represented (92_eei_decisions.md, open parameters; log entry 11). -/
structure Params where
  freqW  : Nat
  tickW  : Nat
  nch    : Nat
  neng   : Nat
  cmdW   : Nat
  nparam : Nat
  deriving DecidableEq, Repr

/-- `NPARAM`: the number of parameter registers (R7, 10_state.md R22). -/
abbrev nparam : Nat := 12

/-- The value R7 gives `NCH`, the number of channels of BC and ID. -/
abbrev nch : Nat := 4

/-- The values of R7: the TFMS that `State`, `exec` and `step` are about. -/
abbrev params : Params :=
  { freqW := 16, tickW := 16, nch := nch, neng := 1, cmdW := 32, nparam := nparam }

/-- The records R7 lets a model take: `NCH` from 1 to 16, the reach of the 4-bit `ch` field, and for every
other parameter its one value, the width or count that the spec's other rules write out (log entry 9). -/
def Params.wf (p : Params) : Bool :=
  decide (p = { params with nch := p.nch }) && decide (1 ≤ p.nch) && decide (p.nch ≤ 16)

/-- FREE VALUE (log entry 3): the 16-bit frequency a register and an event hold where a rule forms a number
outside 0 to 65535. The arguments are the number of the command and the slot within it. -/
opaque freeFreq : Nat → Nat → Freq

/-- FREE VALUE (log entry 4): a symbol index or bit cursor where a rule forms one above 8. -/
opaque freeIndex : Nat → Nat → Fin 9

/-- FREE VALUE (log entry 4): the two bits of the symbol read past the end of the symbol plan. -/
opaque freeSymbolBits : Nat → Bool × Bool

/-- FREE VALUE (log entry 4): the message bit read with the cursor past the end of the byte. -/
opaque freeBit : Nat → Nat → Bool

/-- FREE VALUE (log entry 5): how many of its events a command abandoned by `rst` has emitted
(70_reset_and_hazards.md R230, 93_implementation_defined.md U27). -/
opaque freeEventCount : Nat → Nat

/-- FREE VALUE (log entry 5): the events of a command abandoned by `rst` whose behaviour is unspecified
(42_tone_engine.md R131, 43_broadcaster.md R172). -/
opaque freeEvents : Nat → List ActEvent

end Sys2Proof.Config
end

