-- ==== Sys2Proof/WellFormed.lean ====
section
/-! DEFINITION. The well-formed commands: those whose word is legal (30_encoding.md R89 items (c)
and (d)). The other items of R89 cannot be broken by a term of `Instr`. -/

namespace Sys2Proof

/-- R89 (c): the index names one of the twelve registers. -/
def wfParamIndex (idx : Byte) : Bool := decide (idx.toNat < Config.nparam)

/-- R89 (d): the value is one of the register's legal values (40_parameters.md R112). -/
def wfParamValue (p : Config.Params) (idx : Byte) (value : Half) : Bool :=
  (idx.toNat != 4 || decide (value.toNat ≤ 1)) &&
  (idx.toNat != 10 || decide (value.toNat < 2 ^ p.nch))

/-- A command whose word is legal for a TFMS with the parameters `p`. -/
def Instr.wfFor (p : Config.Params) : Instr → Bool
  | .pset idx value => wfParamIndex idx && wfParamValue p idx value
  | .pget idx => wfParamIndex idx
  | .create | .xmit _ | .adv | .qtx | .stop | .destroy => true
  | .bmsg _ | .breq | .btick | .ireq | .itick => true

/-- A command whose word is legal. -/
def Instr.wf (i : Instr) : Bool := i.wfFor Config.params

/-- The proposition form of `Instr.wf`. -/
abbrev Instr.WellFormed (i : Instr) : Prop := i.wf = true

end Sys2Proof
end

