-- ==== Sys2Proof/Decode.lean ====
section
/-! DEFINITION. The command word (30_encoding.md R81, R82), its decoder, total on every 32-bit word
and rejecting each illegal word by name (R89), and after it the encoder. -/

namespace Sys2Proof

/-! ### Fields (R81) -/

/-- `OP`, bits 31:24. -/
def opField (w : Word) : Byte := w.extractLsb' 24 8

/-- `IDX`, bits 23:16. -/
def idxField (w : Word) : Byte := w.extractLsb' 16 8

/-- `DATA`, bits 15:0. -/
def dataField (w : Word) : Half := w.extractLsb' 0 16

/-- `DATA[7:0]`: the byte operand of format B (R82). -/
def dataByte (data : Half) : Byte := data.extractLsb' 0 8

/-- `DATA[15:8]`, zero in format B. -/
def dataHigh (data : Half) : Byte := data.extractLsb' 8 8

/-! ### The opcode map (R86) -/

/-- The `OP` value of each row of R86. -/
def Op.code : Op → Byte
  | .pset    => 0x01
  | .pget    => 0x02
  | .create  => 0x10
  | .xmit    => 0x11
  | .adv     => 0x12
  | .qtx     => 0x13
  | .stop    => 0x14
  | .destroy => 0x15
  | .bmsg    => 0x20
  | .breq    => 0x21
  | .btick   => 0x22
  | .ireq    => 0x30
  | .itick   => 0x31

/-- The format of each row of R86. -/
def Op.format : Op → Format
  | .pset => .p
  | .pget => .r
  | .xmit | .bmsg => .b
  | .create | .adv | .qtx | .stop | .destroy => .n
  | .breq | .btick | .ireq | .itick => .n

/-- All rows, in the table's order. -/
def Op.all : List Op :=
  [.pset, .pget, .create, .xmit, .adv, .qtx, .stop, .destroy, .bmsg, .breq, .btick, .ireq, .itick]

/-- The row with the given `OP` value, none for an unassigned opcode (93_implementation_defined.md
U20). -/
def Op.ofCode (c : Byte) : Option Op := Op.all.find? fun o => o.code == c

/-- `match` of R86's second table. -/
def Op.matchBits (o : Op) : Word := o.code ++ 0#24

/-- `mask` of R86's second table: the bits the format fixes. -/
def Op.mask (o : Op) : Word :=
  match o.format with
  | .n => 0xFFFFFFFF
  | .b => 0xFFFFFF00
  | .p => 0xFF000000
  | .r => 0xFF00FFFF

/-! ### Rejections -/

/-- Why a command word is illegal (R89). -/
inductive Illegal where
  /-- R89 (a): `OP` is none of the thirteen values. -/
  | opcodeUnassigned
  /-- R89 (b): `IDX` is not 0 in format N or B. -/
  | idxNotZero
  /-- R89 (b): `DATA` is not 0 in format N or R, or `DATA[15:8]` is not 0 in format B. -/
  | dataNotZero
  /-- R89 (c): PSET or PGET with an index of 12 or more. -/
  | paramIndexReserved
  /-- R89 (d): PSET of a value the register may not hold. -/
  | paramValueIllegal
  deriving DecidableEq, Repr

/-! ### The decoder -/

/-- Format N: both operand fields must be 0 (R81). -/
def decodeN (i : Instr) (idx : Byte) (data : Half) : Except Illegal Instr :=
  if idx ≠ 0 then .error .idxNotZero
  else if data ≠ 0 then .error .dataNotZero
  else .ok i

/-- Format B: `IDX` and `DATA[15:8]` must be 0 (R81). -/
def decodeB (mk : Byte → Instr) (idx : Byte) (data : Half) : Except Illegal Instr :=
  if idx ≠ 0 then .error .idxNotZero
  else if dataHigh data ≠ 0 then .error .dataNotZero
  else .ok (mk (dataByte data))

/-- Format P, with the value checks of R89 (c) and (d). -/
def decodeP (p : Config.Params) (idx : Byte) (data : Half) : Except Illegal Instr :=
  if idx.toNat ≥ Config.nparam then .error .paramIndexReserved
  else if idx.toNat = 4 ∧ data.toNat > 1 then .error .paramValueIllegal
  else if idx.toNat = 10 ∧ data.toNat ≥ 2 ^ p.nch then .error .paramValueIllegal
  else .ok (.pset idx data)

/-- Format R: `DATA` must be 0, with the index check of R89 (c). -/
def decodeR (idx : Byte) (data : Half) : Except Illegal Instr :=
  if data ≠ 0 then .error .dataNotZero
  else if idx.toNat ≥ Config.nparam then .error .paramIndexReserved
  else .ok (.pget idx)

/-- The command of a row, from its operand fields. -/
def decodeOp (p : Config.Params) (o : Op) (idx : Byte) (data : Half) : Except Illegal Instr :=
  match o with
  | .pset    => decodeP p idx data
  | .pget    => decodeR idx data
  | .create  => decodeN .create idx data
  | .xmit    => decodeB .xmit idx data
  | .adv     => decodeN .adv idx data
  | .qtx     => decodeN .qtx idx data
  | .stop    => decodeN .stop idx data
  | .destroy => decodeN .destroy idx data
  | .bmsg    => decodeB .bmsg idx data
  | .breq    => decodeN .breq idx data
  | .btick   => decodeN .btick idx data
  | .ireq    => decodeN .ireq idx data
  | .itick   => decodeN .itick idx data

/-- The command a word stands for on a TFMS with the parameters `p`, or why it is illegal (R86, R89, R91). -/
def decodeFor (p : Config.Params) (w : Word) : Except Illegal Instr :=
  match Op.ofCode (opField w) with
  | none => .error .opcodeUnassigned
  | some o => decodeOp p o (idxField w) (dataField w)

/-- The command a word stands for, or why it is illegal. -/
def decode (w : Word) : Except Illegal Instr := decodeFor Config.params w

/-- The command of a word numbered as the opcode table numbers its bits; a word of the table is one
32-bit unit, so no byte order enters (20_memory.md R63). -/
def decodeTableWord (nbits w : Nat) : Option Instr :=
  match decode (BitVec.ofNat 32 (w % 2 ^ nbits)) with
  | .ok i => some i
  | .error _ => none

/-! ### The encoder -/

/-- `IDX` of a command (R81). -/
def Instr.idxOperand : Instr → Byte
  | .pset idx _ => idx
  | .pget idx => idx
  | .create | .xmit _ | .adv | .qtx | .stop | .destroy => 0
  | .bmsg _ | .breq | .btick | .ireq | .itick => 0

/-- `DATA` of a command, the byte operand zero-extended (R81, R82). -/
def Instr.dataOperand : Instr → Half
  | .pset _ value => value
  | .xmit b => b.setWidth 16
  | .bmsg b => b.setWidth 16
  | .pget _ | .create | .adv | .qtx | .stop | .destroy => 0
  | .breq | .btick | .ireq | .itick => 0

/-- The command word of a command (R81, R92). -/
def encode (i : Instr) : Word := i.op.code ++ i.idxOperand ++ i.dataOperand

end Sys2Proof
end

