-- ==== Sys2Proof/Machine/State.lean ====
section
/-! DEFINITION. The state of the TFMS (10_state.md), as plain data: the spec's tuple
`(P, eng, bc, id)` of R20, and beside it the model's own record of the ports. -/

namespace Sys2Proof.Machine

/-! ### Names the fields use -/

/-- A symbol of the engine's plan (00_scope.md R15, 30_encoding.md R88). -/
inductive Symbol where
  | low | up | down | high
  deriving DecidableEq, Repr

/-- The alphabet of a configuration (30_encoding.md R88). -/
inductive Alphabet where
  | binary | chirp
  deriving DecidableEq, Repr

/-- `STATUS` of a response word (30_encoding.md R85); codes 4 to 15 are never produced. -/
inductive Status where
  /-- The command was carried out. -/
  | ok
  /-- XMIT while a transmission is active. -/
  | busy
  /-- XMIT while no engine exists. -/
  | inert
  /-- The word is not a legal command. -/
  | illegal
  deriving DecidableEq, Repr

/-- The outcome an ADV reports (30_encoding.md R87). -/
inductive TickOutcome where
  | idle | inProgress | symbolBoundary | messageComplete
  deriving DecidableEq, Repr

/-! ### The engine (10_state.md R23 to R29) -/

/-- `eng.cfg`, the live configuration (R24). -/
structure EngCfg where
  lowFreq     : Freq
  highFreq    : Freq
  symbolTicks : Ticks
  pauseTicks  : Ticks
  alphabet    : Alphabet
  freqSlope   : Freq
  deriving DecidableEq, Repr

/-- The engine's state. `existsBit` is `eng.exists` (R23), `cfg` R24, `symbols` R25, `symbolIndex` R26
(its range 0 to 8, log entry 4), `tickCounter` R27 (17 bits, two's complement), `currentFreq` R28, `isTransmitting`
R29. -/
structure Eng where
  existsBit      : Bool
  cfg            : EngCfg
  symbols        : Vector Symbol 8
  symbolIndex    : Fin 9
  tickCounter    : BitVec 17
  currentFreq    : Freq
  isTransmitting : Bool
  deriving DecidableEq, Repr

/-! ### The broadcaster (10_state.md R31, R32) -/

/-- `bc.ch[i]` (R32). The three signed ramp fields are unbounded integers, as R32 lets a model hold
them (log entry 8); `bitCursor` has its range 0 to 8 (log entry 4). -/
structure Channel where
  message     : Byte
  bitCursor   : Fin 9
  inPause     : Bool
  pauseCount  : BitVec 17
  startFreq   : Int
  endFreq     : Int
  stepFreq    : Int
  currentFreq : Freq
  active      : Bool
  deriving DecidableEq, Repr

/-- The broadcaster with `n` channels: the shared message and the latched request (R31), and one
record for each channel (R32). -/
structure Bc (n : Nat) where
  message : Byte
  req     : Bool
  ch      : Vector Channel n
  deriving DecidableEq, Repr

/-! ### The beacon (10_state.md R34) -/

/-- The beacon with `n` channels (R34). -/
structure Beacon (n : Nat) where
  req       : Bool
  idActive  : Bool
  idCounter : Ticks
  heldMask  : BitVec n
  deriving DecidableEq, Repr

/-! ### The ports (30_encoding.md R80), the model's own -/

/-- What the host and the reset input do next (00_scope.md R13). -/
inductive PortInput where
  /-- The host offers a command word and the TFMS accepts it (30_encoding.md R80). -/
  | command (w : Word)
  /-- `rst` is 1 between two commands (70_reset_and_hazards.md R230). -/
  | reset
  /-- `rst` rises while the command `w` is in flight (70_reset_and_hazards.md R230). -/
  | resetDuring (w : Word)
  deriving DecidableEq, Repr

/-- The ports: what comes in, next first, and the two output sequences that are the observable
behaviour of the TFMS (30_encoding.md R84), oldest first. These are the run of 60_exceptions.md R215,
not registers of the block. -/
structure Port where
  input     : List PortInput
  responses : List Word
  events    : List ActEvent
  deriving DecidableEq, Repr

/-! ### The whole state -/

/-- The state of a TFMS with `n` channels: `P` (R22), `eng` (R23 to R29), `bc` (R31, R32), `beacon` the spec's `id` (R34), and the
model's own `port` and `freeCount`, the number of the command the free values of `Config` are taken
for. -/
structure State.Of (n : Nat) where
  P         : Vector Half Config.nparam
  eng       : Eng
  bc        : Bc n
  beacon    : Beacon n
  port      : Port
  freeCount : Nat
  deriving DecidableEq, Repr

/-- The state of the TFMS with the parameters of 00_scope.md R7. -/
abbrev State : Type := State.Of Config.nch

/-- No command ends in a fault: the TFMS raises nothing, and an error is a response status
(60_exceptions.md R200; log entry 10). -/
inductive Fault where
  deriving DecidableEq, Repr

/-- Where the model stops and says nothing of what the hardware does. -/
inductive Refusal where
  /-- An instruction with no meaning in the model yet; no arm of `exec` raises it. Safe. -/
  | notModelled (mnemonic : String)
  /-- CREATE with `P[0..4]` outside `WF_ENG`: "the behaviour from CREATE on is unspecified" and "a
  model refuses the CREATE" (42_tone_engine.md R131, 93_implementation_defined.md U2). Raised by CREATE.
  Safe: the model stops where the hardware goes on (log entry 6). -/
  | createOutsideWfEng
  /-- A BTICK that would dispatch a channel with a bound outside 0 to 65535: "a model refuses the
  dispatching BTICK" (43_broadcaster.md R172, 93_implementation_defined.md U7). Raised by BTICK. Safe: the
  model stops where the hardware goes on (log entry 7). -/
  | dispatchOutsideFreqRange
  deriving DecidableEq, Repr

/-! ### Reset (10_state.md R38) -/

/-- The configuration with every field 0 (R38). -/
def EngCfg.zero : EngCfg :=
  { lowFreq := 0, highFreq := 0, symbolTicks := 0, pauseTicks := 0, alphabet := .binary,
    freqSlope := 0 }

/-- The engine after reset: inert, idle, nothing commanded (R38). -/
def Eng.reset : Eng :=
  { existsBit := false, cfg := EngCfg.zero, symbols := Vector.replicate 8 .low, symbolIndex := 0,
    tickCounter := 0, currentFreq := 0, isTransmitting := false }

/-- A dormant channel: the all-zero record (R38, 43_broadcaster.md R180). -/
def Channel.zero : Channel :=
  { message := 0, bitCursor := 0, inPause := false, pauseCount := 0, startFreq := 0, endFreq := 0,
    stepFreq := 0, currentFreq := 0, active := false }

/-- The broadcaster after reset (R38). -/
def Bc.reset (n : Nat) : Bc n :=
  { message := 0, req := false, ch := Vector.replicate n Channel.zero }

/-- The beacon after reset (R38). -/
def Beacon.reset (n : Nat) : Beacon n :=
  { req := false, idActive := false, idCounter := 0, heldMask := 0 }

/-- A TFMS with `n` channels right after reset: every field of the spec zero (R38,
70_reset_and_hazards.md R231), nothing offered and nothing presented on the ports (log entry 1). -/
def State.Of.reset (n : Nat) : State.Of n :=
  { P := Vector.replicate Config.nparam 0, eng := Eng.reset, bc := Bc.reset n,
    beacon := Beacon.reset n, port := { input := [], responses := [], events := [] },
    freeCount := 0 }

/-- The machine right after reset. -/
def State.reset : State := State.Of.reset Config.nch

end Sys2Proof.Machine
end

