-- ==== Sys2Proof/Machine/Operands.lean ====
section
/-! DEFINITION. The pure functions the commands call: the parameter registers by name
(40_parameters.md R112), the symbol codec and the frequency planner (41_symbol_codec.md), the
broadcaster's bounds (43_broadcaster.md R171), and the three well-formedness premises. -/

namespace Sys2Proof.Machine

variable {n : Nat}

/-! ### Parameter registers (40_parameters.md R112) -/

def State.Of.pLowFreq (s : State.Of n) : Half := s.P[0]
def State.Of.pHighFreq (s : State.Of n) : Half := s.P[1]
def State.Of.pSymTicks (s : State.Of n) : Half := s.P[2]
def State.Of.pPauseTicks (s : State.Of n) : Half := s.P[3]
def State.Of.pAlphabet (s : State.Of n) : Half := s.P[4]
def State.Of.pBcCenter (s : State.Of n) : Half := s.P[5]
def State.Of.pBcSlope (s : State.Of n) : Half := s.P[6]
def State.Of.pBcDuration (s : State.Of n) : Half := s.P[7]
def State.Of.pBcPause (s : State.Of n) : Half := s.P[8]
def State.Of.pIdFreq (s : State.Of n) : Half := s.P[9]
def State.Of.pIdMask (s : State.Of n) : Half := s.P[10]
def State.Of.pIdTicks (s : State.Of n) : Half := s.P[11]

/-! ### Arithmetic (00_scope.md R9) -/

/-- `ceil_div(a, b)`, the ceiling of the quotient, for `b >= 1` (R9). -/
def ceilDiv (a b : Nat) : Nat := (a + b - 1) / b

/-- The 16-bit frequency of a number a rule forms; outside 0 to 65535 a free value (log entry 3). -/
def narrowFreq (count slot : Nat) (f : Int) : Freq :=
  if 0 ≤ f ∧ f ≤ 65535 then BitVec.ofNat 16 f.toNat else Config.freeFreq count slot

/-- An index or cursor one higher; above 8 a free value (log entry 4). -/
def bump (count slot : Nat) (k : Fin 9) : Fin 9 :=
  if h : k.val + 1 < 9 then ⟨k.val + 1, h⟩ else Config.freeIndex count slot

/-! ### SymbolCodec (41_symbol_codec.md R120 to R125) -/

/-- The Chirp table on the higher and the lower bit of a group (R122), an exhaustive match as R123
asks for; also the symbol with a given 2-bit code (30_encoding.md R88). -/
def Symbol.ofBits (hi lo : Bool) : Symbol :=
  match hi, lo with
  | false, false => .low
  | false, true  => .up
  | true,  false => .down
  | true,  true  => .high

/-- The 2-bit code of a symbol (30_encoding.md R88). -/
def Symbol.code : Symbol → BitVec 2
  | .low  => 0b00
  | .up   => 0b01
  | .down => 0b10
  | .high => 0b11

/-- The 1-bit code of an alphabet (30_encoding.md R88). -/
def Alphabet.code : Alphabet → BitVec 1
  | .binary => 0
  | .chirp  => 1

/-- The alphabet with a given code (30_encoding.md R88). -/
def Alphabet.ofBit (b : Bool) : Alphabet := if b then .chirp else .binary

/-- `encode(b, Binary)` (R121): symbol `k` carries bit `7-k`. -/
def encodeBinary (b : Byte) : Vector Symbol 8 :=
  Vector.ofFn fun k => if b.getLsbD (7 - k.val) then .high else .low

/-- `encode(b, Chirp)` (R122): symbol `k` carries bits `7-2k` and `6-2k`; entries 4 to 7 are filler. -/
def encodeChirp (b : Byte) : Vector Symbol 8 :=
  Vector.ofFn fun k =>
    if k.val < 4 then Symbol.ofBits (b.getLsbD (7 - 2 * k.val)) (b.getLsbD (6 - 2 * k.val))
    else .low

/-- `encode(b, alphabet)` (R120). -/
def encodeSymbols (b : Byte) : Alphabet → Vector Symbol 8
  | .binary => encodeBinary b
  | .chirp  => encodeChirp b

/-- `NSYM(alphabet)` (R125). -/
def nsym : Alphabet → Nat
  | .binary => 8
  | .chirp  => 4

/-- The decoder of R124 for the Binary alphabet, for stating the round trip; the TFMS has none. -/
def decodeBinary (s : Vector Symbol 8) : Nat :=
  ((List.finRange 8).map fun k => (if s[k] = .high then 1 else 0) * 2 ^ (7 - k.val)).sum

/-- The decoder of R124 for the Chirp alphabet, for stating the round trip; the TFMS has none. -/
def decodeChirp (s : Vector Symbol 8) : Nat :=
  ((List.finRange 4).map fun k => s[k.val].code.toNat * 4 ^ (3 - k.val)).sum

/-- `eng.symbols[k]`; past the end of the plan a free symbol (log entry 4). -/
def symbolAt (count : Nat) (e : Eng) (k : Nat) : Symbol :=
  if h : k < 8 then e.symbols[k]
  else Symbol.ofBits (Config.freeSymbolBits count).1 (Config.freeSymbolBits count).2

/-! ### ChirpFrequencyPlanner (41_symbol_codec.md R126, R127) -/

/-- `Plan(sym, t)` (R126): not clamped. -/
def plan (cfg : EngCfg) (sym : Symbol) (t : Int) : Int :=
  match sym with
  | .low  => cfg.lowFreq.toNat
  | .high => cfg.highFreq.toNat
  | .up   => cfg.lowFreq.toNat + cfg.freqSlope.toNat * t
  | .down => cfg.highFreq.toNat - cfg.freqSlope.toNat * t

/-- `cfg.freqSlope` as CREATE derives it (R127); it means something under `WF_ENG` only, and CREATE
takes it under `WF_ENG` only. -/
def slopeOf (low high : Freq) (ticks : Ticks) : Freq :=
  BitVec.ofNat 16 (ceilDiv (high.toNat - low.toNat) ticks.toNat)

/-- The live configuration as CREATE loads it from `P[0..4]` (42_tone_engine.md R130). -/
def State.Of.shadowCfg (s : State.Of n) : EngCfg :=
  { lowFreq := s.pLowFreq, highFreq := s.pHighFreq, symbolTicks := s.pSymTicks,
    pauseTicks := s.pPauseTicks, alphabet := Alphabet.ofBit (s.pAlphabet.getLsbD 0),
    freqSlope := slopeOf s.pLowFreq s.pHighFreq s.pSymTicks }

/-- `WF_ENG` (42_tone_engine.md R131). -/
def EngCfg.wfEng (c : EngCfg) : Bool :=
  decide (1 ≤ c.symbolTicks.toNat) && decide (c.lowFreq.toNat ≤ c.highFreq.toNat) &&
  (c.alphabet != .chirp ||
    (decide (c.lowFreq.toNat + c.freqSlope.toNat * (c.symbolTicks.toNat - 1) ≤ 65535) &&
     decide (c.freqSlope.toNat * (c.symbolTicks.toNat - 1) ≤ c.highFreq.toNat)))

/-! ### The broadcaster's bounds (43_broadcaster.md R171, R172) -/

/-- `P[5..8]`: centre, slope, duration and pause threshold. -/
structure BcParams where
  center   : Half
  slope    : Half
  duration : Half
  pause    : Half
  deriving DecidableEq, Repr

def State.Of.bcParams (s : State.Of n) : BcParams :=
  { center := s.pBcCenter, slope := s.pBcSlope, duration := s.pBcDuration, pause := s.pBcPause }

/-- `span = s * d` (R171). -/
def BcParams.span (q : BcParams) : Nat := q.slope.toNat * q.duration.toNat

/-- `bottom = c - (span div 2)` (R171). -/
def BcParams.bottom (q : BcParams) : Int := (q.center.toNat : Int) - (q.span / 2 : Nat)

/-- `top = bottom + span` (R171). -/
def BcParams.top (q : BcParams) : Int := q.bottom + (q.span : Int)

/-- The last two conjuncts of `WF_BC` (R172): every commanded frequency is an unsigned 16-bit number. -/
def BcParams.inFreqRange (q : BcParams) : Bool := decide (0 ≤ q.bottom) && decide (q.top ≤ 65535)

/-- `WF_BC` (R172). -/
def BcParams.wfBc (q : BcParams) : Bool :=
  decide (1 ≤ q.slope.toNat) && decide (1 ≤ q.duration.toNat) && q.inFreqRange

/-! ### The beacon's premise (44_beacon.md R191), descriptive only -/

/-- `WF_ID` (R191): nothing is refused outside it. -/
def State.Of.wfId (s : State.Of n) : Bool := decide (1 ≤ s.pIdFreq.toNat) && decide (1 ≤ s.pIdTicks.toNat)

end Sys2Proof.Machine
end

