-- ==== Sys2Proof/Machine/Flags.lean ====
section
/-! DEFINITION. The codes on the response and actuator outputs (30_encoding.md R83 to R87), the
one-bit results computed from state flags (10_state.md R35), and the engine's lifecycle phases
(42_tone_engine.md R142). There are no arithmetic condition codes (R35). -/

namespace Sys2Proof.Machine

/-- The `STATUS` codes (30_encoding.md R85). -/
def Status.code : Status → BitVec 4
  | .ok      => 0
  | .busy    => 1
  | .inert   => 2
  | .illegal => 3

/-- The TickOutcome codes (30_encoding.md R87). -/
def TickOutcome.code : TickOutcome → Half
  | .idle            => 0
  | .inProgress      => 1
  | .symbolBoundary  => 2
  | .messageComplete => 3

/-- The `src` codes (30_encoding.md R84). -/
def srcCode : ActSrc → BitVec 2
  | .eng => 0
  | .bc  => 1
  | .id  => 2

/-- The event as one 22-bit word, `src`, `ch`, `freq` (30_encoding.md R84). -/
def eventWord (e : ActEvent) : BitVec 22 := srcCode e.src ++ e.ch ++ e.freq

/-- The response word (30_encoding.md R83): `STATUS`, twelve zeros, `VALUE`. -/
def respWord (st : Status) (value : Half) : Word := st.code ++ 0#12 ++ value

/-- `STATUS` of a response word (30_encoding.md R83). -/
def respStatus (r : Word) : BitVec 4 := r.extractLsb' 28 4

/-- `VALUE` of a response word (30_encoding.md R83). -/
def respValue (r : Word) : Half := r.extractLsb' 0 16

/-- A flag as a `VALUE` (30_encoding.md R83). -/
def flagValue (b : Bool) : Half := if b then 1 else 0

/-- The `VALUE` of a BTICK: bit `i` is `bc.ch[i].active` (30_encoding.md R83). -/
def activeMask {n : Nat} (b : Bc n) : Half :=
  (BitVec.ofBoolListLE (b.ch.toList.map fun c => c.active)).setWidth 16

/-- The engine's phases (42_tone_engine.md R142; 60_exceptions.md R211). -/
inductive Phase where
  | inert
  | idle
  /-- Transmitting, `symbolIndex = k`, `tickCounter = t >= 0`. -/
  | sounding (k : Nat) (t : Int)
  /-- Transmitting, `symbolIndex = k`, `tickCounter = t < 0`. -/
  | pausing (k : Nat) (t : Int)
  deriving DecidableEq, Repr

/-- The phase an engine is in (R142). -/
def Eng.phase (e : Eng) : Phase :=
  if e.isTransmitting then
    if e.tickCounter.toInt < 0 then .pausing e.symbolIndex.val e.tickCounter.toInt
    else .sounding e.symbolIndex.val e.tickCounter.toInt
  else if e.existsBit then .idle
  else .inert

end Sys2Proof.Machine
end

