-- ==== Sys2Proof/Machine/Ops.lean ====
section
/-! DEFINITION. The shared operations of the pseudocode (00_scope.md R11): `emit`, `respond`, the error
answer that stands in the place of an exception (60_exceptions.md R200, R209), the parameter file,
the engine's `Command` and `ClearTx`, the broadcaster's `LoadBit` and `Push` and the work of one
channel in one tick, the beacon's events, and the effect of `rst`. -/

namespace Sys2Proof.Machine

variable {n : Nat}

/-! ### Ports -/

/-- `emit`: append actuator events to the actuator output, in order (00_scope.md R11, R12). -/
def emitAll (es : List ActEvent) (s : State.Of n) : State.Of n :=
  { s with port := { s.port with events := s.port.events ++ es } }

/-- `respond(status, value)`: the one response word a command ends with (00_scope.md R11, 30_encoding.md
R83). It also moves the free values on to the next command. -/
def respond (st : Status) (value : Half) (s : State.Of n) : State.Of n :=
  { s with
    port := { s.port with responses := s.port.responses ++ [respWord st value] }
    freeCount := s.freeCount + 1 }

/-- A command that cannot be carried out: its status with value 0, and nothing else. No state is saved,
no handler entered and nothing to return from (60_exceptions.md R200, R205, R209, R210). -/
def answerError (st : Status) (s : State.Of n) : State.Of n := respond st 0 s

/-! ### The parameter file (10_state.md R22, 20_memory.md R61) -/

/-- `P[i]`. -/
def readParam (s : State.Of n) (i : Fin Config.nparam) : Half := s.P[i]

/-- `P[i] <- v`. -/
def writeParam (i : Fin Config.nparam) (v : Half) (s : State.Of n) : State.Of n :=
  { s with P := s.P.set i.val v i.isLt }

/-! ### The engine (42_tone_engine.md R132, R139) -/

/-- `Command(f)` (R132): the engine's only way to its actuator. -/
def command (f : Int) (s : State.Of n) : State.Of n :=
  let f' := narrowFreq s.freeCount 0 f
  if f' ≠ s.eng.currentFreq then
    emitAll [{ src := .eng, ch := 0, freq := f' }] { s with eng := { s.eng with currentFreq := f' } }
  else s

/-- `ClearTx()` (R139): the plan, the position and the flag, not the commanded frequency. -/
def clearTx (s : State.Of n) : State.Of n :=
  { s with eng := { s.eng with
      isTransmitting := false, symbolIndex := 0, tickCounter := 0,
      symbols := Vector.replicate 8 .low } }

/-! ### One channel of the broadcaster (43_broadcaster.md R173, R176 to R181) -/

/-- The bit the cursor points at: cursor `k` addresses bit `7 - k` (R177); past the byte a free bit
(log entry 4). -/
def Channel.bit (count slot : Nat) (c : Channel) : Bool :=
  if c.bitCursor.val < 8 then c.message.getLsbD (7 - c.bitCursor.val)
  else Config.freeBit count slot

/-- `LoadBit(i, bottom, top, s)` (R177). -/
def loadBit (count slot : Nat) (bottom top step : Int) (c : Channel) : Channel :=
  if c.bit count slot then { c with startFreq := bottom, endFreq := top, stepFreq := step }
  else { c with startFreq := top, endFreq := bottom, stepFreq := -step }

/-- What a channel's part of a BTICK arrives at before its `Push`. -/
structure ChannelStep where
  ch         : Channel
  next       : Int
  dispatched : Bool
  deriving DecidableEq, Repr

/-- Arm A, dispatch (R176, R178). -/
def channelDispatch (q : BcParams) (msg : Byte) (count slot : Nat) (c : Channel) : ChannelStep :=
  let c' := loadBit count slot q.bottom q.top q.slope.toNat
    { c with message := msg, bitCursor := 0, inPause := false, pauseCount := 0, active := true }
  { ch := c', next := c'.startFreq, dispatched := true }

/-- Arm B, a paused tick (R176, R181). -/
def channelPaused (q : BcParams) (count slot : Nat) (c : Channel) : ChannelStep :=
  if c.pauseCount.toNat + 1 > q.pause.toNat then
    let c' := loadBit count slot (min c.startFreq c.endFreq) (max c.startFreq c.endFreq)
      |c.stepFreq| { c with inPause := false, pauseCount := 0 }
    { ch := c', next := c'.startFreq, dispatched := false }
  else
    { ch := { c with pauseCount := BitVec.ofNat 17 (c.pauseCount.toNat + 1) },
      next := c.currentFreq.toNat, dispatched := false }

/-- The record of a channel whose byte is finished, before its `Push` of silence (R176 arm C2). -/
def Channel.finish (c : Channel) : Channel := { Channel.zero with currentFreq := c.currentFreq }

/-- Whether the stepped value has passed the end frequency, read strictly (R176, R180). -/
def Channel.crossed (c : Channel) (stepped : Int) : Bool :=
  (decide (c.stepFreq > 0) && decide (stepped > c.endFreq)) ||
  (decide (c.stepFreq < 0) && decide (stepped < c.endFreq))

/-- Arm C, a ramping tick (R176, R180). -/
def channelRamp (count slot : Nat) (c : Channel) : ChannelStep :=
  let stepped := (c.currentFreq.toNat : Int) + c.stepFreq
  if c.crossed stepped then
    if c.bitCursor.val + 1 = 8 then { ch := c.finish, next := 0, dispatched := false }
    else
      { ch := { c with bitCursor := bump count slot c.bitCursor, inPause := true, pauseCount := 0 },
        next := 0, dispatched := false }
  else { ch := c, next := stepped, dispatched := false }

/-- The four arms of a channel's part of a BTICK (R176). -/
def channelStep (q : BcParams) (req : Bool) (msg : Byte) (count slot : Nat) (c : Channel) :
    ChannelStep :=
  if req = true ∧ c.active = false then channelDispatch q msg count slot c
  else if c.active = true ∧ c.inPause = true then channelPaused q count slot c
  else if c.active = true then channelRamp count slot c
  else { ch := c, next := c.currentFreq.toNat, dispatched := false }

/-- What a channel's whole part of a BTICK leaves and emits. -/
structure ChannelTick where
  ch         : Channel
  events     : List ActEvent
  dispatched : Bool
  deriving DecidableEq, Repr

/-- `Push(i, f)` (R173): the broadcaster's only way to actuator `i`. -/
def push (count slot : Nat) (r : ChannelStep) : ChannelTick :=
  let f' := narrowFreq count slot r.next
  if f' ≠ r.ch.currentFreq then
    { ch := { r.ch with currentFreq := f' },
      events := [{ src := .bc, ch := BitVec.ofNat 4 slot, freq := f' }], dispatched := r.dispatched }
  else { ch := r.ch, events := [], dispatched := r.dispatched }

/-- A channel's part of a BTICK, its `Push` included (R176). -/
def channelTick (q : BcParams) (req : Bool) (msg : Byte) (count slot : Nat) (c : Channel) :
    ChannelTick :=
  push count slot (channelStep q req msg count slot c)

/-! ### All channels (43_broadcaster.md R176, R179) -/

/-- Channel `i`'s part of a BTICK. Every channel sees the same request flag, since the last channel
clears it after its own `Push` (R176, R179). -/
def Bc.part {n : Nat} (q : BcParams) (count : Nat) (b : Bc n) (i : Fin n) : ChannelTick :=
  channelTick q b.req b.message count i.val b.ch[i]

/-- Whether the channel with index `NCH-1` dispatches in this tick. -/
def Bc.lastDispatches {n : Nat} (q : BcParams) (count : Nat) (b : Bc n) : Bool :=
  (List.finRange n).any fun i => i.val + 1 == n && (b.part q count i).dispatched

/-- The broadcaster after a BTICK (R176). -/
def Bc.ticked {n : Nat} (q : BcParams) (count : Nat) (b : Bc n) : Bc n :=
  { message := b.message, req := b.req && !b.lastDispatches q count,
    ch := Vector.ofFn fun i => (b.part q count i).ch }

/-- The events of a BTICK, in ascending channel order (R176). -/
def Bc.tickEvents {n : Nat} (q : BcParams) (count : Nat) (b : Bc n) : List ActEvent :=
  (List.finRange n).flatMap fun i => (b.part q count i).events

/-- Whether some channel dispatches in this tick (R178). -/
def Bc.dispatches {n : Nat} (b : Bc n) : Bool := b.req && b.ch.toList.any fun c => !c.active

/-! ### The beacon (44_beacon.md R193, R195) -/

/-- One unconditional event for each channel of a mask, in ascending order (R193, R195). -/
def beaconEvents {n : Nat} (mask : BitVec n) (f : Freq) : List ActEvent :=
  (List.finRange n).flatMap fun i =>
    if mask.getLsbD i.val then [{ src := .id, ch := BitVec.ofNat 4 i.val, freq := f }] else []

/-- Arm A, the start: `freq` and `mask` are `P[9]` and `P[10]` (R193). -/
def Beacon.start {n : Nat} (mask : Half) (_b : Beacon n) : Beacon n :=
  { req := false, idActive := true, idCounter := 0, heldMask := mask.setWidth n }

/-- Whether the hold is over at this holding tick: `ticks` is `P[11]` (R193). -/
def Beacon.holdOver {n : Nat} (ticks : Half) (b : Beacon n) : Bool :=
  decide (b.idCounter.toNat + 1 ≥ ticks.toNat)

/-- Arm C, a holding tick; the latch is clear after it whether it was set or not (R193, R194). -/
def Beacon.hold {n : Nat} (ticks : Half) (b : Beacon n) : Beacon n :=
  if b.holdOver ticks then { req := false, idActive := false, idCounter := 0, heldMask := 0 }
  else { b with req := false, idCounter := BitVec.ofNat 16 (b.idCounter.toNat + 1) }

/-- The beacon after an ITICK (R193). -/
def Beacon.ticked {n : Nat} (mask ticks : Half) (b : Beacon n) : Beacon n :=
  if b.idActive then b.hold ticks else if b.req then b.start mask else b

/-- The events of an ITICK (R193). -/
def Beacon.tickEvents {n : Nat} (freq mask ticks : Half) (b : Beacon n) : List ActEvent :=
  if b.idActive then if b.holdOver ticks then beaconEvents b.heldMask 0 else []
  else if b.req then beaconEvents ((b.start mask).heldMask) freq
  else []

/-! ### Reset (70_reset_and_hazards.md R230) -/

/-- `rst` is 1: every state field at its reset value, no response and no event (R230, R238). What the
ports have presented stays presented (log entry 13). -/
def resetUnits (s : State.Of n) : State.Of n :=
  { State.Of.reset n with port := s.port, freeCount := s.freeCount + 1 }

/-- The events an abandoned command has emitted: `o` is what the command would have led to from `s`.
Some first part of its events, or, where the command's behaviour is unspecified, any events (R230,
93_implementation_defined.md U27; log entry 5). -/
def abandonedEvents (s : State.Of n) (o : Host.Outcome (State.Of n) Fault Refusal) : List ActEvent :=
  match o with
  | .next t =>
    (t.port.events.drop s.port.events.length).take (Config.freeEventCount s.freeCount)
  | .fault _ => Config.freeEvents s.freeCount
  | .refused _ => Config.freeEvents s.freeCount

/-- `rst` rises while a command is in flight: the state is the reset state regardless, and the response
is not presented (R230). -/
def abandon (s : State.Of n) (o : Host.Outcome (State.Of n) Fault Refusal) : State.Of n :=
  emitAll (abandonedEvents s o) (resetUnits s)

end Sys2Proof.Machine
end

