-- ==== Sys2Proof/Machine/Broadcaster.lean ====
section
/-! DEFINITION. The multi-channel broadcaster: BMSG, BREQ, BTICK (43_broadcaster.md). -/

namespace Sys2Proof.Machine

variable {n : Nat}

/-- BMSG (R174). -/
def execBmsg (byte : Byte) (s : State.Of n) : Host.Outcome (State.Of n) Fault Refusal :=
  .next (respond .ok 0 { s with bc := { s.bc with message := byte } })

/-- BREQ (R175). -/
def execBreq (s : State.Of n) : Host.Outcome (State.Of n) Fault Refusal :=
  .next (respond .ok 0 { s with bc := { s.bc with req := true } })

/-- BTICK (R176). A dispatch whose bounds leave 0 to 65535 is refused (R172); with slope 0 or duration 0
it does what R176 gives, the hang of 70_reset_and_hazards.md R237 included (log entry 7). -/
def execBtick (s : State.Of n) : Host.Outcome (State.Of n) Fault Refusal :=
  let q := s.bcParams
  if s.bc.dispatches = true ∧ q.inFreqRange = false then .refused .dispatchOutsideFreqRange
  else
    let b := s.bc.ticked q s.freeCount
    .next (respond .ok (activeMask b)
      (emitAll (s.bc.tickEvents q s.freeCount) { s with bc := b }))

end Sys2Proof.Machine
end

