-- ==== Sys2Proof/Machine/Engine.lean ====
section
/-! DEFINITION. The tone engine: CREATE, XMIT, ADV, QTX, STOP, DESTROY (42_tone_engine.md). -/

namespace Sys2Proof.Machine

variable {n : Nat}

/-- CREATE (R130), under `WF_ENG` of the configuration it loads (R131). -/
def execCreate (s : State.Of n) : Host.Outcome (State.Of n) Fault Refusal :=
  if s.shadowCfg.wfEng then
    let s1 := clearTx (command 0 s)
    .next (respond .ok 0
      { s1 with eng := { s1.eng with cfg := s.shadowCfg, existsBit := true } })
  else .refused .createOutsideWfEng

/-- XMIT (R133), with the order of checks of 30_encoding.md R90. -/
def execXmit (byte : Byte) (s : State.Of n) : Host.Outcome (State.Of n) Fault Refusal :=
  if s.eng.existsBit = false then .next (answerError .inert s)
  else if s.eng.isTransmitting = true then .next (answerError .busy s)
  else
    let s1 : State.Of n := { s with eng := { s.eng with
      symbols := encodeSymbols byte s.eng.cfg.alphabet, symbolIndex := 0, tickCounter := 0,
      isTransmitting := true } }
    .next (respond .ok 0 (command (plan s1.eng.cfg s1.eng.symbols[0] 0) s1))

/-- The engine's position in its plan, as ADV writes it. -/
def setPosition (k : Fin 9) (t : Int) (s : State.Of n) : State.Of n :=
  { s with eng := { s.eng with symbolIndex := k, tickCounter := BitVec.ofInt 17 t } }

/-- The boundary of a symbol: arms D, E and F of ADV (R134, R136 to R138). -/
def advBoundary (s : State.Of n) : State.Of n :=
  let cfg := s.eng.cfg
  let k := s.eng.symbolIndex.val + 1
  if k = nsym cfg.alphabet then
    respond .ok TickOutcome.messageComplete.code (clearTx (command 0 s))
  else
    let k' := bump s.freeCount 0 s.eng.symbolIndex
    if cfg.alphabet = .chirp ∧ cfg.pauseTicks.toNat > 0 then
      respond .ok TickOutcome.symbolBoundary.code
        (setPosition k' (-(cfg.pauseTicks.toNat : Int)) (command 0 s))
    else
      respond .ok TickOutcome.symbolBoundary.code
        (command (plan cfg (symbolAt s.freeCount s.eng k'.val) 0) (setPosition k' 0 s))

/-- ADV (R134): arms A, B and C, and the boundary. -/
def execAdv (s : State.Of n) : Host.Outcome (State.Of n) Fault Refusal :=
  let k := s.eng.symbolIndex
  let t := s.eng.tickCounter.toInt + 1
  if s.eng.isTransmitting = false then .next (respond .ok TickOutcome.idle.code s)
  else if t < 0 then .next (respond .ok TickOutcome.inProgress.code (setPosition k t s))
  else if t < s.eng.cfg.symbolTicks.toNat then
    .next (respond .ok TickOutcome.inProgress.code
      (command (plan s.eng.cfg (symbolAt s.freeCount s.eng k.val) t) (setPosition k t s)))
  else .next (advBoundary s)

/-- QTX (R145). -/
def execQtx (s : State.Of n) : Host.Outcome (State.Of n) Fault Refusal :=
  .next (respond .ok (flagValue s.eng.isTransmitting) s)

/-- STOP (R146). -/
def execStop (s : State.Of n) : Host.Outcome (State.Of n) Fault Refusal :=
  .next (respond .ok (flagValue s.eng.isTransmitting) (clearTx (command 0 s)))

/-- DESTROY (R148). -/
def execDestroy (s : State.Of n) : Host.Outcome (State.Of n) Fault Refusal :=
  let s1 := clearTx (command 0 s)
  .next (respond .ok 0
    { s1 with eng := { s1.eng with cfg := EngCfg.zero, existsBit := false } })

end Sys2Proof.Machine
end

