-- ==== Sys2Proof/Machine/Identification.lean ====
section
/-! DEFINITION. The identification beacon: IREQ, ITICK (44_beacon.md). -/

namespace Sys2Proof.Machine

variable {n : Nat}

/-- IREQ (R192). -/
def execIreq (s : State.Of n) : Host.Outcome (State.Of n) Fault Refusal :=
  .next (respond .ok 0 { s with beacon := { s.beacon with req := true } })

/-- ITICK (R193), total on every parameter value (R191). -/
def execItick (s : State.Of n) : Host.Outcome (State.Of n) Fault Refusal :=
  let b := s.beacon.ticked s.pIdMask s.pIdTicks
  .next (respond .ok (flagValue b.idActive)
    (emitAll (s.beacon.tickEvents s.pIdFreq s.pIdMask s.pIdTicks) { s with beacon := b }))

end Sys2Proof.Machine
end

