-- ==== Sys2Proof/Machine/Parameters.lean ====
section
/-! DEFINITION. PSET and PGET (40_parameters.md). -/

namespace Sys2Proof.Machine

variable {n : Nat}

/-- PSET (R110). -/
def execPset (idx : Byte) (value : Half) (s : State.Of n) : Host.Outcome (State.Of n) Fault Refusal :=
  if h : idx.toNat < Config.nparam then
    if idx.toNat = 4 ∧ value.toNat > 1 then .next (answerError .illegal s)
    else if idx.toNat = 10 ∧ value.toNat ≥ 2 ^ n then .next (answerError .illegal s)
    else .next (respond .ok 0 (writeParam ⟨idx.toNat, h⟩ value s))
  else .next (answerError .illegal s)

/-- PGET (R111); that `DATA` is 0 is the decoder's check (log entry 12). -/
def execPget (idx : Byte) (s : State.Of n) : Host.Outcome (State.Of n) Fault Refusal :=
  if h : idx.toNat < Config.nparam then .next (respond .ok (readParam s ⟨idx.toNat, h⟩) s)
  else .next (answerError .illegal s)

end Sys2Proof.Machine
end

