-- ==== Sys2Proof/Machine/Dispatch.lean ====
section
/-! DEFINITION. The meaning of each command, one arm for each constructor of `Instr`. -/

namespace Sys2Proof.Machine

def exec (i : Instr) (s : State) : Host.Outcome State Fault Refusal :=
  match i with
  | .pset idx value => Sys2Proof.Machine.execPset idx value s
  | .pget idx => Sys2Proof.Machine.execPget idx s
  | .create => Sys2Proof.Machine.execCreate s
  | .xmit byte => Sys2Proof.Machine.execXmit byte s
  | .adv => Sys2Proof.Machine.execAdv s
  | .qtx => Sys2Proof.Machine.execQtx s
  | .stop => Sys2Proof.Machine.execStop s
  | .destroy => Sys2Proof.Machine.execDestroy s
  | .bmsg byte => Sys2Proof.Machine.execBmsg byte s
  | .breq => Sys2Proof.Machine.execBreq s
  | .btick => Sys2Proof.Machine.execBtick s
  | .ireq => Sys2Proof.Machine.execIreq s
  | .itick => Sys2Proof.Machine.execItick s

end Sys2Proof.Machine
end

