-- ==== Sys2Proof/Machine/Accept.lean ====
section
/-! DEFINITION. The step of a TFMS, as 00_scope.md R13 and R14 have it: the implementation parameters of R7
are an argument. `State`, `exec` and `step` are the TFMS with the values of R7, and `execFor` and `stepFor`
the one with any. What stands around the execution of a command is written once, over the execution. -/

namespace Sys2Proof.Machine

/-! ### Port inputs -/

/-- The state once the next port input is taken off the list. -/
def popInput {n : Nat} (rest : List PortInput) (s : State.Of n) : State.Of n :=
  { s with port := { s.port with input := rest } }

/-- The state with one more port input before the others. -/
def pushInput {n : Nat} (p : PortInput) (s : State.Of n) : State.Of n :=
  { s with port := { s.port with input := p :: s.port.input } }

/-! ### Around the execution of a command -/

/-- What executes a command on a TFMS with the parameters `p`. -/
abbrev Execution (p : Config.Params) : Type :=
  Instr → State.Of p.nch → Host.Outcome (State.Of p.nch) Fault Refusal

/-- One accepted command word (00_scope.md R12, R13): the command it stands for, or the ILLEGAL answer
(30_encoding.md R89). Legality is checked before any state is read (R90). -/
def acceptWith (p : Config.Params) (run : Execution p) (w : Word) (s : State.Of p.nch) :
    Host.Outcome (State.Of p.nch) Fault Refusal :=
  match decodeFor p w with
  | .ok i => run i s
  | .error _ => .next (answerError .illegal s)

/-- One move of the host or of the reset input (00_scope.md R13, 70_reset_and_hazards.md R230). -/
def takeInputWith (p : Config.Params) (run : Execution p) (x : PortInput) (s : State.Of p.nch) :
    Host.Outcome (State.Of p.nch) Fault Refusal :=
  match x with
  | .command w => acceptWith p run w s
  | .reset => .next (resetUnits s)
  | .resetDuring w => .next (abandon s (acceptWith p run w s))

/-- One step (00_scope.md R13). With nothing offered the TFMS is still: it has no step of its own. -/
def stepWith (p : Config.Params) (run : Execution p) (s : State.Of p.nch) :
    Host.Outcome (State.Of p.nch) Fault Refusal :=
  match s.port.input with
  | [] => .next s
  | x :: rest => takeInputWith p run x (popInput rest s)

/-! ### Any implementation parameters -/

/-- The meaning of each command on a TFMS with the parameters `p`. -/
def execFor (p : Config.Params) : Execution p := fun i s =>
  match i with
  | .pset idx value => execPset idx value s
  | .pget idx => execPget idx s
  | .create => execCreate s
  | .xmit byte => execXmit byte s
  | .adv => execAdv s
  | .qtx => execQtx s
  | .stop => execStop s
  | .destroy => execDestroy s
  | .bmsg byte => execBmsg byte s
  | .breq => execBreq s
  | .btick => execBtick s
  | .ireq => execIreq s
  | .itick => execItick s

/-- The step function R13 asks for: total on every word, the parameters and the state its arguments, the
events and the responses in the state's record of the ports. -/
def stepFor (p : Config.Params) (s : State.Of p.nch) : Host.Outcome (State.Of p.nch) Fault Refusal :=
  stepWith p (execFor p) s

/-! ### The values of R7 -/

/-- One accepted command word, on the TFMS with the values of R7. -/
def acceptWord (w : Word) (s : State) : Host.Outcome State Fault Refusal :=
  acceptWith Config.params exec w s

end Sys2Proof.Machine
end

