-- ==== Sys2Proof/Machine/Step.lean ====
section
/-! DEFINITION. One step: the next port input is taken and acted on. -/

namespace Sys2Proof.Machine

/-- One step of the TFMS with the values of 00_scope.md R7 (R13). -/
def step (s : State) : Host.Outcome State Fault Refusal := stepWith Config.params exec s

/-- `s` with a command word, numbered as the opcode table numbers its bits, offered on the command port
before anything else; the next step accepts it (log entry 2). -/
def State.withFetchWord (s : State) (nbits w : Nat) : State :=
  pushInput (.command (BitVec.ofNat 32 (w % 2 ^ nbits))) s

end Sys2Proof.Machine
end

