-- ==== Sys2Proof/Machine/Run.lean ====
section
/-! DEFINITION. A finite run (60_exceptions.md R215), the pseudo-commands (30_encoding.md R93) and the
textual form of a command (R92). -/

namespace Sys2Proof.Machine

/-- A run: a finite list of command words applied from a start state (R215), ending at the first
refusal. -/
def runWordsWith (p : Config.Params) (run : Execution p) :
    List Word → State.Of p.nch → Host.Outcome (State.Of p.nch) Fault Refusal
  | [], s => .next s
  | w :: ws, s =>
    match acceptWith p run w s with
    | .next t => runWordsWith p run ws t
    | .fault r => .fault r
    | .refused r => .refused r

/-- A run of the TFMS with the values of 00_scope.md R7. -/
def runWords (ws : List Word) (s : State) : Host.Outcome State Fault Refusal :=
  runWordsWith Config.params exec ws s

/-! ### Pseudo-commands (R93) -/

/-- `ENGCFG low, high, sym, pause, alpha`. -/
def engCfgCommands (low high sym pause alpha : Half) : List Instr :=
  [.pset 0 low, .pset 1 high, .pset 2 sym, .pset 3 pause, .pset 4 alpha]

/-- `RECONFIG`. -/
def reconfigCommands : List Instr := [.destroy, .create]

/-- `BCCFG centre, slope, dur, pause`. -/
def bcCfgCommands (centre slope dur pause : Half) : List Instr :=
  [.pset 5 centre, .pset 6 slope, .pset 7 dur, .pset 8 pause]

/-- `IDCFG freq, mask, ticks`. -/
def idCfgCommands (freq mask ticks : Half) : List Instr :=
  [.pset 9 freq, .pset 10 mask, .pset 11 ticks]

/-- `TICK`: one tick of all three units, in this order. -/
def tickCommands : List Instr := [.adv, .btick, .itick]

/-- `NOP`: a command with no effect but its response. -/
def nopCommands : List Instr := [.qtx]

/-- `x n`: the repeat count of R92. -/
def repeated (n : Nat) (i : Instr) : List Instr := List.replicate n i

/-! ### Assembler text (R92) -/

/-- The names of the parameter registers in index order (40_parameters.md R112), which the assembler text
may use for an index. -/
def paramNames : Vector String Config.nparam :=
  #v["P_LOWFREQ", "P_HIGHFREQ", "P_SYMTICKS", "P_PAUSETICKS", "P_ALPHABET", "P_BC_CENTER",
    "P_BC_SLOPE", "P_BC_DURATION", "P_BC_PAUSE", "P_ID_FREQ", "P_ID_MASK", "P_ID_TICKS"]

/-- The mnemonic of a row of the opcode table (R86). -/
def opMnemonic : Op → String
  | .pset => "PSET"
  | .pget => "PGET"
  | .create => "CREATE"
  | .xmit => "XMIT"
  | .adv => "ADV"
  | .qtx => "QTX"
  | .stop => "STOP"
  | .destroy => "DESTROY"
  | .bmsg => "BMSG"
  | .breq => "BREQ"
  | .btick => "BTICK"
  | .ireq => "IREQ"
  | .itick => "ITICK"

/-- One command as a line of assembler text, numerals decimal (R92). -/
def asmText (i : Instr) : String :=
  match i with
  | .pset idx value => opMnemonic i.op ++ " " ++ toString idx.toNat ++ ", " ++ toString value.toNat
  | .pget idx => opMnemonic i.op ++ " " ++ toString idx.toNat
  | .xmit b => opMnemonic i.op ++ " " ++ toString b.toNat
  | .bmsg b => opMnemonic i.op ++ " " ++ toString b.toNat
  | .create | .adv | .qtx | .stop | .destroy => opMnemonic i.op
  | .breq | .btick | .ireq | .itick => opMnemonic i.op

end Sys2Proof.Machine
end

