-- ==== Sys2Proof/Safety.lean ====
section
/-! DEFINITION. The terms claims use: what a command answers and emits, what it leaves alone, the
runs the spec classes as faulted (60_exceptions.md R203, R204), and the invariants the spec states
(10_state.md R23, R30, R33, R34; 40_parameters.md R112). -/

namespace Sys2Proof.Machine

variable {n : Nat}

/-! ### Outputs -/

/-- From `s` to `t` exactly one response word was presented, `st` with `value`, and the host's further
inputs are untouched. -/
def Answers (s t : State.Of n) (st : Status) (value : Half) : Prop :=
  t.port.responses = s.port.responses ++ [respWord st value] ∧ t.port.input = s.port.input

/-- From `s` to `t` exactly the events `es` were presented, in this order. -/
def Emits (s t : State.Of n) (es : List ActEvent) : Prop := t.port.events = s.port.events ++ es

/-- The events of one anti-chatter write: one if the commanded frequency changes, else none
(42_tone_engine.md R132, 43_broadcaster.md R173). -/
def changeEvent (src : ActSrc) (ch : BitVec 4) (old new : Freq) : List ActEvent :=
  if new = old then [] else [{ src := src, ch := ch, freq := new }]

/-! ### Frames -/

/-- The parameter file is unchanged. -/
def KeepsParams (s t : State.Of n) : Prop := t.P = s.P

/-- Every field of the engine is unchanged. -/
def KeepsEngine (s t : State.Of n) : Prop := t.eng = s.eng

/-- Every field of the broadcaster is unchanged. -/
def KeepsBroadcaster (s t : State.Of n) : Prop := t.bc = s.bc

/-- Every field of the beacon is unchanged. -/
def KeepsBeacon (s t : State.Of n) : Prop := t.beacon = s.beacon

/-- The whole tuple `(P, eng, bc, id)` of 10_state.md R20 is unchanged. -/
def KeepsUnits (s t : State.Of n) : Prop :=
  KeepsParams s t ∧ KeepsEngine s t ∧ KeepsBroadcaster s t ∧ KeepsBeacon s t

/-! ### The reset values, field by field (10_state.md R38) -/

/-- A channel with every field 0. -/
def ChannelZero (c : Channel) : Prop :=
  c.message = 0 ∧ c.bitCursor = 0 ∧ c.inPause = false ∧ c.pauseCount = 0 ∧ c.startFreq = 0 ∧
  c.endFreq = 0 ∧ c.stepFreq = 0 ∧ c.currentFreq = 0 ∧ c.active = false

/-- A transmission state with every field 0, the commanded frequency apart (10_state.md R30 (f)). -/
def TxClear (e : Eng) : Prop :=
  e.isTransmitting = false ∧ e.symbolIndex = 0 ∧ e.tickCounter = 0 ∧
  ∀ k : Fin 8, e.symbols[k] = .low

/-- A configuration with every field 0. -/
def CfgZero (c : EngCfg) : Prop :=
  c.lowFreq = 0 ∧ c.highFreq = 0 ∧ c.symbolTicks = 0 ∧ c.pauseTicks = 0 ∧ c.alphabet = .binary ∧
  c.freqSlope = 0

/-- Every row of the table of R38. -/
def AllFieldsZero (s : State.Of n) : Prop :=
  (∀ i : Fin Config.nparam, s.P[i] = 0) ∧
  s.eng.existsBit = false ∧ CfgZero s.eng.cfg ∧ TxClear s.eng ∧ s.eng.currentFreq = 0 ∧
  s.bc.message = 0 ∧ s.bc.req = false ∧ (∀ i : Fin n, ChannelZero s.bc.ch[i]) ∧
  s.beacon.req = false ∧ s.beacon.idActive = false ∧ s.beacon.idCounter = 0 ∧
  s.beacon.heldMask = 0

/-! ### Faulted runs -/

/-- A run that contains an INERT or an ILLEGAL response is one in which the host broke a duty
(60_exceptions.md R203, R204, R214 H4 and H5); a BUSY response is no fault (R201; log entry
10). -/
def hostBrokeDuty (s : State.Of n) : Bool :=
  s.port.responses.any fun r =>
    respStatus r == Status.inert.code || respStatus r == Status.illegal.code

/-! ### Invariants -/

/-- Each parameter register of a TFMS with `n` channels holds one of its legal values (40_parameters.md
R112). -/
def ParamsLegal (n : Nat) (P : Vector Half Config.nparam) : Prop :=
  P[4].toNat ≤ 1 ∧ P[10].toNat < 2 ^ n

/-- The engine invariants (10_state.md R23 and R30, 42_tone_engine.md R131). -/
structure EngineOk (e : Eng) : Prop where
  /-- R23: without an instance the configuration is zero. -/
  inert : e.existsBit = false → e.cfg = EngCfg.zero
  /-- R131: the live configuration is well-formed. -/
  wellFormed : e.existsBit = true → e.cfg.wfEng = true
  /-- R127: the slope is the one CREATE derives. -/
  slope : e.existsBit = true →
    e.cfg.freqSlope = slopeOf e.cfg.lowFreq e.cfg.highFreq e.cfg.symbolTicks
  /-- R30 (a). -/
  idleSilent : e.isTransmitting = false → e.currentFreq = 0
  /-- R30 (b). -/
  live : e.isTransmitting = true → e.existsBit = true
  /-- R30 (c). -/
  position : e.isTransmitting = true →
    e.symbolIndex.val < nsym e.cfg.alphabet ∧
    -(e.cfg.pauseTicks.toNat : Int) ≤ e.tickCounter.toInt ∧
    e.tickCounter.toInt < e.cfg.symbolTicks.toNat
  /-- R30 (d). -/
  pausing : e.isTransmitting = true → e.tickCounter.toInt < 0 →
    e.cfg.alphabet = .chirp ∧ 1 ≤ e.symbolIndex.val ∧ e.currentFreq = 0
  /-- R30 (e). -/
  sounding : e.isTransmitting = true → 0 ≤ e.tickCounter.toInt →
    ∀ h : e.symbolIndex.val < 8,
      (e.currentFreq.toNat : Int) = plan e.cfg e.symbols[e.symbolIndex.val] e.tickCounter.toInt
  /-- R30 (f). -/
  idleClear : e.isTransmitting = false →
    e.symbolIndex = 0 ∧ e.tickCounter = 0 ∧ e.symbols = Vector.replicate 8 .low
  /-- 30_encoding.md R88: under Binary only LOW and HIGH occur. -/
  binaryFlat : e.isTransmitting = true → e.cfg.alphabet = .binary →
    ∀ k : Fin 8, e.symbols[k] = .low ∨ e.symbols[k] = .high

/-- The invariants of one channel (10_state.md R32 and R33 (b) to (d), 43_broadcaster.md R171, R180). -/
structure ChannelOk (c : Channel) : Prop where
  /-- R180: a dormant channel is the all-zero record. -/
  dormant : c.active = false → c = Channel.zero
  /-- R33 (c). -/
  paused : c.active = true → c.inPause = true →
    c.currentFreq = 0 ∧ 1 ≤ c.bitCursor.val ∧ c.bitCursor.val ≤ 7
  /-- R33 (d): the cursor, and the bounds of the current frequency. -/
  ramping : c.active = true → c.inPause = false →
    c.bitCursor.val ≤ 7 ∧ min c.startFreq c.endFreq ≤ c.currentFreq.toNat ∧
    (c.currentFreq.toNat : Int) ≤ max c.startFreq c.endFreq
  /-- R33 (d): the current frequency is a whole number of steps past the start. -/
  onGrid : c.active = true → c.inPause = false →
    ∃ m : Nat, (c.currentFreq.toNat : Int) = c.startFreq + m * c.stepFreq
  /-- R171: the end is a whole number of steps past the start. -/
  wholeSteps : c.active = true → ∃ d : Nat, c.endFreq = c.startFreq + d * c.stepFreq
  /-- R32: the ranges of the ramp fields. -/
  ranges : 0 ≤ c.startFreq ∧ c.startFreq ≤ 65535 ∧ 0 ≤ c.endFreq ∧ c.endFreq ≤ 65535 ∧
    -65535 ≤ c.stepFreq ∧ c.stepFreq ≤ 65535
  /-- R32: the range of the pause count, which is 0 outside a pause (R176). -/
  pauseCount : c.pauseCount.toNat ≤ 65536 ∧ (c.inPause = false → c.pauseCount = 0)

/-- The broadcaster invariants (10_state.md R33). -/
structure BroadcasterOk {n : Nat} (b : Bc n) : Prop where
  /-- R33 (a): lockstep. -/
  lockstep : ∀ i j : Fin n, b.ch[i] = b.ch[j]
  channels : ∀ i : Fin n, ChannelOk b.ch[i]

/-- The beacon invariant (10_state.md R34). -/
def BeaconOk {n : Nat} (b : Beacon n) : Prop :=
  b.idActive = false → b.idCounter = 0 ∧ b.heldMask = 0

/-- The invariant of the machine. -/
structure MachineOk (s : State.Of n) : Prop where
  params : ParamsLegal n s.P
  engine : EngineOk s.eng
  broadcaster : BroadcasterOk s.bc
  beacon : BeaconOk s.beacon

end Sys2Proof.Machine
end

