-- ==== Sys2Proof/Certificates/Slice0/Obligations.lean ====
section
/-! DEFINITION. The statements for the provers. `s` is the state before, `t` the state after. -/

open Sys2Proof Sys2Proof.Machine

/-! ### Encoding (30_encoding.md) -/

/-- Words written out from R92's table decode to their commands, one for each row. -/
def Obligations.SpecWordsDecode : Prop :=
  decode 0x0101280A = .ok (.pset 1 10250) ∧ decode 0x02010000 = .ok (.pget 1) ∧
  decode 0x10000000 = .ok .create ∧ decode 0x110000C6 = .ok (.xmit 0xC6) ∧
  decode 0x12000000 = .ok .adv ∧ decode 0x13000000 = .ok .qtx ∧ decode 0x14000000 = .ok .stop ∧
  decode 0x15000000 = .ok .destroy ∧ decode 0x20000080 = .ok (.bmsg 0x80) ∧
  decode 0x21000000 = .ok .breq ∧ decode 0x22000000 = .ok .btick ∧
  decode 0x30000000 = .ok .ireq ∧ decode 0x31000000 = .ok .itick

/-- Decoding the word of a well-formed command gives the command back, at every operand value. -/
def Obligations.DecodeOfEncode : Prop :=
  ∀ i : Instr, i.WellFormed → decode (encode i) = .ok i

/-- Every word that decodes is the word of the well-formed command it decodes to: no second spelling. -/
def Obligations.EncodeOfDecode : Prop :=
  ∀ (w : Word) (i : Instr), decode w = .ok i → i.WellFormed ∧ encode i = w

/-- A word decodes to a command of a row only if it matches the row's `match` and `mask`, and no word
matches two rows (R86). -/
def Obligations.DecodeFollowsMatchMask : Prop :=
  (∀ (w : Word) (i : Instr), decode w = .ok i → w &&& i.op.mask = i.op.matchBits) ∧
  ∀ (w : Word) (o o' : Op), w &&& o.mask = o.matchBits → w &&& o'.mask = o'.matchBits → o = o'

/-- R89: a word is illegal when one of (a) to (d) holds, with the fields of R81; an illegal word is
answered ILLEGAL with value 0, changes no state and emits no event, and every other word is a command. -/
def Obligations.IllegalWordsAnsweredIllegal : Prop :=
  ∀ (s : State) (w : Word) (rest : List PortInput), s.port.input = .command w :: rest →
    let op := w.extractLsb' 24 8
    let idx := w.extractLsb' 16 8
    let data := w.extractLsb' 0 16
    let known := ∃ o : Op, op = o.code
    let isFormat := fun f : Format => ∃ o : Op, op = o.code ∧ o.format = f
    let a := ¬ known
    let b := ((isFormat .n ∨ isFormat .b) ∧ idx ≠ 0) ∨ ((isFormat .n ∨ isFormat .r) ∧ data ≠ 0) ∨
      (isFormat .b ∧ data.extractLsb' 8 8 ≠ 0)
    let c := (op = 0x01 ∨ op = 0x02) ∧ 12 ≤ idx.toNat
    let d := op = 0x01 ∧ ((idx.toNat = 4 ∧ 1 < data.toNat) ∨
      (idx.toNat = 10 ∧ 2 ^ Config.nch ≤ data.toNat))
    ((a ∨ b ∨ c ∨ d) → ∃ t, step s = .next t ∧ KeepsUnits s t ∧ Emits s t [] ∧
      t.port.responses = s.port.responses ++ [0x30000000] ∧ t.port.input = rest) ∧
    (¬ (a ∨ b ∨ c ∨ d) → ∃ i, decode w = .ok i)

/-- Each rejection name says what it says of the word (R89). -/
def Obligations.RejectionsNameTheirCause : Prop :=
  ∀ (w : Word) (e : Illegal), decode w = .error e →
    match e with
    | .opcodeUnassigned => ∀ o : Op, w.extractLsb' 24 8 ≠ o.code
    | .idxNotZero => w.extractLsb' 16 8 ≠ 0 ∧
        ∃ o : Op, w.extractLsb' 24 8 = o.code ∧ (o.format = .n ∨ o.format = .b)
    | .dataNotZero => ∃ o : Op, w.extractLsb' 24 8 = o.code ∧
        (((o.format = .n ∨ o.format = .r) ∧ w.extractLsb' 0 16 ≠ 0) ∨
         (o.format = .b ∧ (w.extractLsb' 0 16).extractLsb' 8 8 ≠ 0))
    | .paramIndexReserved => 12 ≤ (w.extractLsb' 16 8).toNat ∧
        (w.extractLsb' 24 8 = 0x01 ∨ w.extractLsb' 24 8 = 0x02)
    | .paramValueIllegal => w.extractLsb' 24 8 = 0x01 ∧
        ((w.extractLsb' 16 8).toNat = 4 ∧ 1 < (w.extractLsb' 0 16).toNat ∨
         (w.extractLsb' 16 8).toNat = 10 ∧ 2 ^ Config.nch ≤ (w.extractLsb' 0 16).toNat)

/-- The words of R92's table as numbers. -/
def Obligations.WordsAsNumbers : Prop :=
  (∀ idx value, (encode (.pset idx value)).toNat =
    0x01000000 + idx.toNat * 0x10000 + value.toNat) ∧
  (∀ idx, (encode (.pget idx)).toNat = 0x02000000 + idx.toNat * 0x10000) ∧
  (∀ b, (encode (.xmit b)).toNat = 0x11000000 + b.toNat) ∧
  (∀ b, (encode (.bmsg b)).toNat = 0x20000000 + b.toNat) ∧
  encode .create = 0x10000000 ∧ encode .adv = 0x12000000 ∧ encode .qtx = 0x13000000 ∧
  encode .stop = 0x14000000 ∧ encode .destroy = 0x15000000 ∧ encode .breq = 0x21000000 ∧
  encode .btick = 0x22000000 ∧ encode .ireq = 0x30000000 ∧ encode .itick = 0x31000000

/-! ### The step (00_scope.md R12, R13; 70_reset_and_hazards.md R230) -/

/-- A step on an accepted word that decodes runs the command it decodes to, the word taken off the
port; with nothing offered the machine is still. -/
def Obligations.StepRunsDecodedCommand : Prop :=
  (∀ (s : State) (w : Word) (rest : List PortInput) (i : Instr),
    s.port.input = .command w :: rest → decode w = .ok i → step s = exec i (popInput rest s)) ∧
  ∀ s : State, s.port.input = [] → step s = .next s

/-- After reset every state field is zero: the state after reset, and the state after a step in which
`rst` is 1, which emits no event and presents no response (R38). -/
def Obligations.ResetZeroesEveryField : Prop :=
  AllFieldsZero State.reset ∧
  ∀ (s : State) (rest : List PortInput), s.port.input = .reset :: rest →
    ∃ t, step s = .next t ∧ AllFieldsZero t ∧ Emits s t [] ∧
      t.port.responses = s.port.responses ∧ t.port.input = rest

/-- A command in flight when `rst` rises is abandoned: the state is the reset state regardless and its
response is not presented (R230). That what it has emitted is a first part of what it would have emitted is
the model's choice (log entry 5, read from the order of emission of R12): R230 says "some, all or none". How
long a part is a free value. -/
def Obligations.ResetAbandonsCommand : Prop :=
  ∀ (s : State) (w : Word) (rest : List PortInput), s.port.input = .resetDuring w :: rest →
    ∃ t, step s = .next t ∧ AllFieldsZero t ∧ t.port.responses = s.port.responses ∧
      t.port.input = rest ∧
      ∀ u, acceptWord w (popInput rest s) = .next u →
        ∃ made k, Emits s u made ∧ Emits s t (made.take k)

/-! ### Whole-machine rules -/

/-- Every command that runs presents exactly one response word with `STATUS` 0 to 3, zero bits 27:16
and value 0 unless the status is OK; only XMIT answers BUSY or INERT (R83, R85). -/
def Obligations.OneResponsePerCommand : Prop :=
  ∀ (i : Instr) (s t : State), exec i s = .next t →
    ∃ (r : Word) (st : Status), t.port.responses = s.port.responses ++ [r] ∧
      t.port.input = s.port.input ∧ r.extractLsb' 28 4 = st.code ∧ r.extractLsb' 16 12 = 0 ∧
      (st ≠ .ok → r.extractLsb' 0 16 = 0) ∧ (st = .busy ∨ st = .inert → i.op = .xmit)

/-- After a non-OK response the TFMS is in exactly the state it was in before the command, and nothing
was emitted (R205, R209). -/
def Obligations.NonOkChangesNothing : Prop :=
  ∀ (i : Instr) (s t : State) (st : Status) (v : Half), exec i s = .next t →
    Answers s t st v → st ≠ .ok → KeepsUnits s t ∧ Emits s t []

/-- Every command runs in every state, but for CREATE outside `WF_ENG` (log entry 6) and for a BTICK that
would dispatch outside the frequency range, which are refused by name. That a dispatch outside `WF_BC` by
slope 0 or duration 0 alone runs is the model's choice (log entry 7): R172 says that a model refuses it. -/
def Obligations.OnlyTwoRefusals : Prop :=
  ∀ (i : Instr) (s : State),
    (∃ t, exec i s = .next t) ∨
    (i = .create ∧ s.shadowCfg.wfEng = false ∧ exec i s = .refused .createOutsideWfEng) ∨
    (i = .btick ∧ s.bc.dispatches = true ∧ s.bcParams.inFreqRange = false ∧
      exec i s = .refused .dispatchOutsideFreqRange)

/-- The three units share no state but the parameter file, and each is changed by its own commands
alone (R2, R142, R22, R24, R31, R34). -/
def Obligations.UnitsChangedByTheirOwnCommands : Prop :=
  ∀ (i : Instr) (s t : State), exec i s = .next t →
    (i.op ≠ .pset → KeepsParams s t) ∧
    (i.op ∉ [Op.create, .xmit, .adv, .stop, .destroy] → KeepsEngine s t) ∧
    (i.op ∉ [Op.bmsg, .breq, .btick] → KeepsBroadcaster s t) ∧
    (i.op ∉ [Op.ireq, .itick] → KeepsBeacon s t) ∧
    (i.op ≠ .create → i.op ≠ .destroy →
      t.eng.cfg = s.eng.cfg ∧ t.eng.existsBit = s.eng.existsBit) ∧
    (i.op ≠ .bmsg → t.bc.message = s.bc.message)

/-- Anti-chatter: an engine command emits one event, with source ENG and channel 0, exactly when it
changes the engine's commanded frequency, and that event carries the new frequency; BTICK does the same
for each channel, in ascending channel order; the latching, parameter and query commands emit nothing
(R132, R173). -/
def Obligations.EventsOnlyOnChange : Prop :=
  ∀ (i : Instr) (s t : State), exec i s = .next t →
    (i.op ∈ [Op.create, .xmit, .adv, .qtx, .stop, .destroy] →
      Emits s t (changeEvent .eng 0 s.eng.currentFreq t.eng.currentFreq)) ∧
    (i.op = .btick →
      Emits s t ((List.finRange Config.nch).flatMap fun k =>
        changeEvent .bc (BitVec.ofNat 4 k.val) s.bc.ch[k].currentFreq t.bc.ch[k].currentFreq)) ∧
    (i.op ∈ [Op.pset, .pget, .qtx, .bmsg, .breq, .ireq] → Emits s t [])

/-- Writing a parameter register does not reach a running engine: each engine command but CREATE does
the same with the register written before it as with the register written after it (R113, R236). -/
def Obligations.ShadowParametersDoNotReachEngine : Prop :=
  ∀ (i : Instr) (p : Fin Config.nparam) (v : Half) (s : State),
    (i.op = .xmit ∨ i.op = .adv ∨ i.op = .qtx ∨ i.op = .stop ∨ i.op = .destroy) →
    ∃ t, exec i s = .next t ∧ exec i (writeParam p v s) = .next (writeParam p v t)

/-- `P[5..7]` are read at dispatch alone: with no channel dispatching, BTICK leaves the same broadcaster
and presents the same outputs whatever they hold (R178, R236). -/
def Obligations.RunningBroadcastIgnoresBounds : Prop :=
  ∀ (s s' : State), s.bc.dispatches = false →
    s'.bc = s.bc → s'.port = s.port → s'.freeCount = s.freeCount → s'.pBcPause = s.pBcPause →
    ∃ t t', exec .btick s = .next t ∧ exec .btick s' = .next t' ∧ t'.bc = t.bc ∧ t'.port = t.port

/-! ### Parameters (40_parameters.md) -/

/-- PSET: the word, the three ILLEGAL branches, and else the one register written (R110). -/
def Obligations.PsetWritesOneRegister : Prop :=
  ∀ (idx : Byte) (value : Half) (s : State),
    (encode (.pset idx value)).toNat = 0x01000000 + idx.toNat * 0x10000 + value.toNat ∧
    ∃ t, exec (.pset idx value) s = .next t ∧
    KeepsEngine s t ∧ KeepsBroadcaster s t ∧ KeepsBeacon s t ∧ Emits s t [] ∧
    if 12 ≤ idx.toNat ∨ (idx.toNat = 4 ∧ 1 < value.toNat) ∨
        (idx.toNat = 10 ∧ 2 ^ Config.nch ≤ value.toNat) then
      Answers s t .illegal 0 ∧ KeepsParams s t
    else
      Answers s t .ok 0 ∧
      ∀ j : Fin Config.nparam, t.P[j] = if j.val = idx.toNat then value else s.P[j]

/-- PGET: the word, the register's value, or ILLEGAL for a reserved index; a PGET word with `DATA` not 0 is
answered ILLEGAL too. Nothing changes (R111). -/
def Obligations.PgetReadsRegister : Prop :=
  (∀ idx : Byte, (encode (.pget idx)).toNat = 0x02000000 + idx.toNat * 0x10000) ∧
  (∀ (idx : Byte) (s : State), ∃ t, exec (.pget idx) s = .next t ∧ KeepsUnits s t ∧
    Emits s t [] ∧
    (12 ≤ idx.toNat → Answers s t .illegal 0) ∧
    ∀ h : idx.toNat < Config.nparam, Answers s t .ok s.P[idx.toNat]) ∧
  ∀ (w : Word) (s : State), w.extractLsb' 24 8 = 0x02 → w.extractLsb' 0 16 ≠ 0 →
    ∃ t, acceptWord w s = .next t ∧ Answers s t .illegal 0 ∧ KeepsUnits s t ∧ Emits s t []

/-! ### The engine (42_tone_engine.md) -/

/-- CREATE under `WF_ENG`: the live configuration is loaded from the shadow parameters, the slope
derived, the transmission state cleared, silence commanded (R130, R127). -/
def Obligations.CreateLoadsConfiguration : Prop :=
  ∀ s : State, s.shadowCfg.wfEng = true →
    ∃ t, exec .create s = .next t ∧
      t.eng.cfg.lowFreq = s.P[0] ∧ t.eng.cfg.highFreq = s.P[1] ∧ t.eng.cfg.symbolTicks = s.P[2] ∧
      t.eng.cfg.pauseTicks = s.P[3] ∧
      t.eng.cfg.alphabet = (if s.P[4].getLsbD 0 then .chirp else .binary) ∧
      t.eng.cfg.freqSlope.toNat =
        (s.P[1].toNat - s.P[0].toNat + s.P[2].toNat - 1) / s.P[2].toNat ∧
      t.eng.existsBit = true ∧ TxClear t.eng ∧ t.eng.currentFreq = 0 ∧
      Emits s t (changeEvent .eng 0 s.eng.currentFreq 0) ∧ Answers s t .ok 0 ∧
      KeepsParams s t ∧ KeepsBroadcaster s t ∧ KeepsBeacon s t

/-- CREATE is refused exactly when `P[0..4]` is outside `WF_ENG`, spelled out over the shadow parameters
(R131; log entry 6). -/
def Obligations.CreateRefusedOutsideWfEng : Prop :=
  ∀ s : State,
    let low := s.P[0].toNat
    let high := s.P[1].toNat
    let ticks := s.P[2].toNat
    let slope := (high - low + ticks - 1) / ticks
    exec .create s = .refused .createOutsideWfEng ↔
      ¬ (1 ≤ ticks ∧ low ≤ high ∧
        (s.P[4].getLsbD 0 = true →
          low + slope * (ticks - 1) ≤ 65535 ∧ slope * (ticks - 1) ≤ high))

/-- XMIT on an idle engine commits the plan of the byte and commands the first symbol's frequency:
`lowFreq` for LOW or UP, `highFreq` for HIGH or DOWN (R133). -/
def Obligations.XmitStartsTransmission : Prop :=
  ∀ (b : Byte) (s : State), s.eng.existsBit = true → s.eng.isTransmitting = false →
    ∃ t, exec (.xmit b) s = .next t ∧
      t.eng.symbols = encodeSymbols b s.eng.cfg.alphabet ∧ t.eng.symbolIndex = 0 ∧
      t.eng.tickCounter = 0 ∧ t.eng.isTransmitting = true ∧
      t.eng.currentFreq =
        (if t.eng.symbols[0] = .low ∨ t.eng.symbols[0] = .up then s.eng.cfg.lowFreq
         else s.eng.cfg.highFreq) ∧
      t.eng.existsBit = true ∧ t.eng.cfg = s.eng.cfg ∧
      Emits s t (changeEvent .eng 0 s.eng.currentFreq t.eng.currentFreq) ∧ Answers s t .ok 0 ∧
      KeepsParams s t ∧ KeepsBroadcaster s t ∧ KeepsBeacon s t

/-- Order of checks: an illegal word, an XMIT word among them, answers ILLEGAL whatever the state; XMIT on
an inert engine answers INERT; on a transmitting engine BUSY; in each case nothing changes (R90, R201,
R203). -/
def Obligations.XmitOrderOfChecks : Prop :=
  (∀ (w : Word) (e : Illegal) (s : State), decode w = .error e →
    ∃ t, acceptWord w s = .next t ∧ Answers s t .illegal 0 ∧ KeepsUnits s t ∧ Emits s t []) ∧
  (∀ (w : Word) (s : State), w.extractLsb' 24 8 = 0x11 →
    (w.extractLsb' 16 8 ≠ 0 ∨ w.extractLsb' 8 8 ≠ 0) →
    ∃ t, acceptWord w s = .next t ∧ Answers s t .illegal 0 ∧ KeepsUnits s t ∧ Emits s t []) ∧
  (∀ (b : Byte) (s : State), s.eng.existsBit = false →
    ∃ t, exec (.xmit b) s = .next t ∧ Answers s t .inert 0 ∧ KeepsUnits s t ∧ Emits s t []) ∧
  ∀ (b : Byte) (s : State), s.eng.existsBit = true → s.eng.isTransmitting = true →
    ∃ t, exec (.xmit b) s = .next t ∧ Answers s t .busy 0 ∧ KeepsUnits s t ∧ Emits s t []

/-- ADV away from a symbol boundary: idle (arm A), the pause goes on (arm B), inside a symbol or at the
end of a pause (arm C), where the planned frequency is commanded (R134). -/
def Obligations.AdvAwayFromBoundary : Prop :=
  ∀ s : State,
    (s.eng.isTransmitting = false →
      ∃ t, exec .adv s = .next t ∧ KeepsUnits s t ∧ Emits s t [] ∧ Answers s t .ok 0) ∧
    (s.eng.isTransmitting = true → s.eng.tickCounter.toInt + 1 < 0 →
      ∃ t, exec .adv s = .next t ∧ t.eng.tickCounter.toInt = s.eng.tickCounter.toInt + 1 ∧
        t.eng = { s.eng with tickCounter := t.eng.tickCounter } ∧
        KeepsParams s t ∧ KeepsBroadcaster s t ∧ KeepsBeacon s t ∧
        Emits s t [] ∧ Answers s t .ok 1) ∧
    ∀ h : s.eng.symbolIndex.val < 8, s.eng.isTransmitting = true →
      let next := s.eng.tickCounter.toInt + 1
      let f := plan s.eng.cfg s.eng.symbols[s.eng.symbolIndex.val] next
      0 ≤ next → next < s.eng.cfg.symbolTicks.toNat → 0 ≤ f → f ≤ 65535 →
      ∃ t, exec .adv s = .next t ∧ t.eng.tickCounter.toInt = next ∧
        (t.eng.currentFreq.toNat : Int) = f ∧
        t.eng = { s.eng with
          tickCounter := t.eng.tickCounter, currentFreq := t.eng.currentFreq } ∧
        KeepsParams s t ∧ KeepsBroadcaster s t ∧ KeepsBeacon s t ∧
        Emits s t (changeEvent .eng 0 s.eng.currentFreq t.eng.currentFreq) ∧ Answers s t .ok 1

/-- ADV at the boundary of a symbol: the end of the message (arm D), the start of a pause (arm E), the
next symbol at once (arm F) (R134). -/
def Obligations.AdvAtBoundary : Prop :=
  ∀ s : State, s.eng.isTransmitting = true → 0 ≤ s.eng.tickCounter.toInt + 1 →
    (s.eng.cfg.symbolTicks.toNat : Int) ≤ s.eng.tickCounter.toInt + 1 →
    let n := nsym s.eng.cfg.alphabet
    let paused := s.eng.cfg.alphabet = .chirp ∧ 0 < s.eng.cfg.pauseTicks.toNat
    (s.eng.symbolIndex.val + 1 = n →
      ∃ t, exec .adv s = .next t ∧ TxClear t.eng ∧ t.eng.currentFreq = 0 ∧
        t.eng.cfg = s.eng.cfg ∧ t.eng.existsBit = s.eng.existsBit ∧
        KeepsParams s t ∧ KeepsBroadcaster s t ∧ KeepsBeacon s t ∧
        Emits s t (changeEvent .eng 0 s.eng.currentFreq 0) ∧ Answers s t .ok 3) ∧
    (s.eng.symbolIndex.val + 1 < n → paused →
      ∃ t, exec .adv s = .next t ∧ t.eng.symbolIndex.val = s.eng.symbolIndex.val + 1 ∧
        t.eng.tickCounter.toInt = -(s.eng.cfg.pauseTicks.toNat : Int) ∧ t.eng.currentFreq = 0 ∧
        t.eng = { s.eng with
          symbolIndex := t.eng.symbolIndex, tickCounter := t.eng.tickCounter,
          currentFreq := t.eng.currentFreq } ∧
        KeepsParams s t ∧ KeepsBroadcaster s t ∧ KeepsBeacon s t ∧
        Emits s t (changeEvent .eng 0 s.eng.currentFreq 0) ∧ Answers s t .ok 2) ∧
    ∀ h : s.eng.symbolIndex.val + 1 < 8, s.eng.symbolIndex.val + 1 < n → ¬ paused →
      let sym := s.eng.symbols[s.eng.symbolIndex.val + 1]
      ∃ t, exec .adv s = .next t ∧ t.eng.symbolIndex.val = s.eng.symbolIndex.val + 1 ∧
        t.eng.tickCounter = 0 ∧
        t.eng.currentFreq = (if sym = .low ∨ sym = .up then s.eng.cfg.lowFreq
          else s.eng.cfg.highFreq) ∧
        t.eng = { s.eng with
          symbolIndex := t.eng.symbolIndex, tickCounter := t.eng.tickCounter,
          currentFreq := t.eng.currentFreq } ∧
        KeepsParams s t ∧ KeepsBroadcaster s t ∧ KeepsBeacon s t ∧
        Emits s t (changeEvent .eng 0 s.eng.currentFreq t.eng.currentFreq) ∧ Answers s t .ok 2

/-- The rows of R142 for ADV: from each phase of an engine that satisfies the invariants, the phase
and the response that follow. -/
def Obligations.AdvMovesPhase : Prop :=
  ∀ s : State, EngineOk s.eng →
    let N := nsym s.eng.cfg.alphabet
    let T : Int := s.eng.cfg.symbolTicks.toNat
    let Q : Int := s.eng.cfg.pauseTicks.toNat
    let pause := s.eng.cfg.alphabet = .chirp ∧ 0 < Q
    ∃ t, exec .adv s = .next t ∧
      (s.eng.phase = .inert → t.eng.phase = .inert ∧ Answers s t .ok 0) ∧
      (s.eng.phase = .idle → t.eng.phase = .idle ∧ Answers s t .ok 0) ∧
      (∀ k τ, s.eng.phase = .sounding k τ →
        (τ + 1 < T → t.eng.phase = .sounding k (τ + 1) ∧ Answers s t .ok 1) ∧
        (τ = T - 1 → k + 1 < N → ¬ pause →
          t.eng.phase = .sounding (k + 1) 0 ∧ Answers s t .ok 2) ∧
        (τ = T - 1 → k + 1 < N → pause →
          t.eng.phase = .pausing (k + 1) (-Q) ∧ Answers s t .ok 2) ∧
        (τ = T - 1 → k = N - 1 → t.eng.phase = .idle ∧ Answers s t .ok 3)) ∧
      ∀ k τ, s.eng.phase = .pausing k τ →
        (τ < -1 → t.eng.phase = .pausing k (τ + 1) ∧ Answers s t .ok 1) ∧
        (τ = -1 → t.eng.phase = .sounding k 0 ∧ Answers s t .ok 1)

/-- The rows of R142 for CREATE, XMIT, STOP and DESTROY. -/
def Obligations.ControlMovesPhase : Prop :=
  ∀ s : State, EngineOk s.eng →
    (s.shadowCfg.wfEng = true → ∃ t, exec .create s = .next t ∧ t.eng.phase = .idle ∧
      Answers s t .ok 0) ∧
    (∀ b, ∃ t, exec (.xmit b) s = .next t ∧
      (s.eng.phase = .inert → t.eng.phase = .inert ∧ Answers s t .inert 0) ∧
      (s.eng.phase = .idle → t.eng.phase = .sounding 0 0 ∧ Answers s t .ok 0) ∧
      (s.eng.phase ≠ .inert → s.eng.phase ≠ .idle →
        t.eng.phase = s.eng.phase ∧ Answers s t .busy 0)) ∧
    (∃ t, exec .stop s = .next t ∧
      (s.eng.phase = .inert → t.eng.phase = .inert ∧ Answers s t .ok 0) ∧
      (s.eng.phase = .idle → t.eng.phase = .idle ∧ Answers s t .ok 0) ∧
      (s.eng.phase ≠ .inert → s.eng.phase ≠ .idle →
        t.eng.phase = .idle ∧ Answers s t .ok 1)) ∧
    ∃ t, exec .destroy s = .next t ∧ t.eng.phase = .inert ∧ Answers s t .ok 0

/-- QTX answers whether a transmission is active, and changes nothing: 0 on an inert engine, 1 during a
pause (R145). -/
def Obligations.QtxReportsTransmitting : Prop :=
  encode .qtx = 0x13000000 ∧
  ∀ s : State, ∃ t, exec .qtx s = .next t ∧ KeepsUnits s t ∧ Emits s t [] ∧
    Answers s t .ok (if s.eng.isTransmitting then 1 else 0) ∧
    (EngineOk s.eng → s.eng.existsBit = false → Answers s t .ok 0) ∧
    (s.eng.isTransmitting = true → s.eng.tickCounter.toInt < 0 → Answers s t .ok 1)

/-- STOP commands silence, clears the transmission state and answers whether anything was interrupted;
the configuration and `eng.exists` are kept, and the next ADV answers Idle (R146). -/
def Obligations.StopSilencesAndClears : Prop :=
  encode .stop = 0x14000000 ∧
  ∀ s : State, ∃ t, exec .stop s = .next t ∧ TxClear t.eng ∧ t.eng.currentFreq = 0 ∧
    t.eng.cfg = s.eng.cfg ∧ t.eng.existsBit = s.eng.existsBit ∧
    KeepsParams s t ∧ KeepsBroadcaster s t ∧ KeepsBeacon s t ∧
    Emits s t (changeEvent .eng 0 s.eng.currentFreq 0) ∧
    Answers s t .ok (if s.eng.isTransmitting then 1 else 0) ∧
    ∃ u, exec .adv t = .next u ∧ Answers t u .ok 0 ∧ Emits t u []

/-- DESTROY commands silence and leaves every engine field 0; the shadow parameters stay (R148). -/
def Obligations.DestroyLeavesInert : Prop :=
  ∀ s : State, ∃ t, exec .destroy s = .next t ∧ t.eng.existsBit = false ∧ CfgZero t.eng.cfg ∧
    TxClear t.eng ∧ t.eng.currentFreq = 0 ∧
    KeepsParams s t ∧ KeepsBroadcaster s t ∧ KeepsBeacon s t ∧
    Emits s t (changeEvent .eng 0 s.eng.currentFreq 0) ∧ Answers s t .ok 0

/-- The commands that may be repeated freely: a second PSET with the same operands, BREQ, IREQ or STOP
changes nothing and emits nothing, and a second STOP interrupts nothing (R65). -/
def Obligations.RepeatedCommandsChangeNothing : Prop :=
  ∀ (i : Instr) (s t u : State), i.op ∈ [Op.pset, .breq, .ireq, .stop] →
    exec i s = .next t → exec i t = .next u →
    KeepsUnits t u ∧ Emits t u [] ∧ (i = .stop → Answers t u .ok 0)

/-- The number of ADVs from an accepted XMIT to the one that answers MessageComplete: `8T` under Binary,
`4T + 3Q` under Chirp; every earlier one answers InProgress or SymbolBoundary, and after it the engine is
idle and silent (R140). -/
def Obligations.TransmissionLength : Prop :=
  ∀ (b : Byte) (s s1 : State), EngineOk s.eng → s.eng.existsBit = true →
    s.eng.isTransmitting = false → exec (.xmit b) s = .next s1 →
    let T := s.eng.cfg.symbolTicks.toNat
    let Q := s.eng.cfg.pauseTicks.toNat
    let len := if s.eng.cfg.alphabet = .binary then 8 * T else 4 * T + 3 * Q
    (∀ k, k < len → ∃ t, runWords (List.replicate k 0x12000000) s1 = .next t ∧
      t.eng.isTransmitting = true ∧ t.port.responses.length = s1.port.responses.length + k ∧
      ∀ r ∈ t.port.responses.drop s1.port.responses.length, r = 0x00000001 ∨ r = 0x00000002) ∧
    ∃ t, runWords (List.replicate len 0x12000000) s1 = .next t ∧
      TxClear t.eng ∧ t.eng.currentFreq = 0 ∧ t.port.responses.getLast? = some 0x00000003

/-! ### Codec and planner (41_symbol_codec.md) -/

/-- The order of the message bits: Binary symbol `k` is HIGH exactly when bit `7-k` is 1; Chirp symbol `k`
has as its code the two bits `7-2k` and `6-2k`, and entries 4 to 7 are LOW (R121, R122). -/
def Obligations.CodecOrder : Prop :=
  ∀ b : Byte,
    (∀ k : Fin 8, (encodeSymbols b .binary)[k] = if b.getLsbD (7 - k.val) then .high else .low) ∧
    (∀ k : Fin 8, k.val < 4 →
      (encodeSymbols b .chirp)[k].code = b.extractLsb' (6 - 2 * k.val) 2) ∧
    ∀ k : Fin 8, 4 ≤ k.val → (encodeSymbols b .chirp)[k] = .low

/-- Both alphabets' encodings of a byte decode to the byte (R124). -/
def Obligations.CodecRoundTrip : Prop :=
  ∀ b : Byte, decodeBinary (encodeSymbols b .binary) = b.toNat ∧
    decodeChirp (encodeSymbols b .chirp) = b.toNat

/-- The derived slope is the ceiling of bandwidth over symbol ticks: its `T` steps reach the bandwidth
and pass it by less than `T` (R127, R128). -/
def Obligations.SlopeIsCeiling : Prop :=
  ∀ (low high : Freq) (ticks : Ticks), 1 ≤ ticks.toNat → low.toNat ≤ high.toNat →
    let s := (slopeOf low high ticks).toNat
    high.toNat - low.toNat ≤ s * ticks.toNat ∧
    s * ticks.toNat ≤ high.toNat - low.toNat + (ticks.toNat - 1)

/-- Under `WF_ENG` every planned value of a symbol that the alphabet has is a 16-bit frequency, the UP
sequence is non-decreasing and the DOWN sequence non-increasing (R126, R128, R131). -/
def Obligations.PlannedFrequenciesInRange : Prop :=
  ∀ (c : EngCfg) (sym : Symbol) (t : Int), c.wfEng = true → 0 ≤ t → t < c.symbolTicks.toNat →
    (c.alphabet = .binary → sym = .low ∨ sym = .high) →
    0 ≤ plan c sym t ∧ plan c sym t ≤ 65535 ∧
    plan c .up t ≤ plan c .up (t + 1) ∧ plan c .down (t + 1) ≤ plan c .down t

/-! ### The broadcaster (43_broadcaster.md) -/

/-- The bounds: `top - bottom` is `d` steps of `s`, and the centre lies half a span above the bottom (R171). -/
def Obligations.BoundsAroundCentre : Prop :=
  ∀ q : BcParams,
    let span : Int := q.slope.toNat * q.duration.toNat
    q.bottom = q.center.toNat - span / 2 ∧ q.top = q.bottom + span

/-- BMSG writes the shared message and nothing else: no channel sees it before its dispatch (R174). -/
def Obligations.BmsgSetsSharedMessage : Prop :=
  ∀ (b : Byte) (s : State), ∃ t, exec (.bmsg b) s = .next t ∧ t.bc.message = b ∧
    t.bc.req = s.bc.req ∧ t.bc.ch = s.bc.ch ∧ KeepsParams s t ∧ KeepsEngine s t ∧
    KeepsBeacon s t ∧ Emits s t [] ∧ Answers s t .ok 0

/-- BREQ latches the request and nothing else, whatever was latched (R175). -/
def Obligations.BreqLatchesRequest : Prop :=
  ∀ s : State, ∃ t, exec .breq s = .next t ∧ t.bc.req = true ∧ t.bc.message = s.bc.message ∧
    t.bc.ch = s.bc.ch ∧ KeepsParams s t ∧ KeepsEngine s t ∧ KeepsBeacon s t ∧ Emits s t [] ∧
    Answers s t .ok 0

/-- BTICK completes unless it would dispatch outside the frequency range, and answers the mask of active
channels; it keeps the message, the parameters, the engine and the beacon (R176, R83). That it
completes where slope or duration is 0 at a dispatch, outside `WF_BC`, is the model's choice (log entry 7). -/
def Obligations.BtickAnswersActiveMask : Prop :=
  ∀ s : State, (s.bc.dispatches = true → s.bcParams.inFreqRange = true) →
    ∃ (t : State) (mask : Half), exec .btick s = .next t ∧ Answers s t .ok mask ∧
      (∀ i : Fin Config.nch, mask.getLsbD i.val = t.bc.ch[i].active) ∧
      (∀ k, Config.nch ≤ k → mask.getLsbD k = false) ∧
      t.bc.message = s.bc.message ∧ KeepsParams s t ∧ KeepsEngine s t ∧ KeepsBeacon s t

/-- BTICK is refused exactly when a dormant channel would take the request with a bound outside 0 to
65535 (R172; log entry 7). -/
def Obligations.BtickRefusedOutsideRange : Prop :=
  ∀ s : State, exec .btick s = .refused .dispatchOutsideFreqRange ↔
    s.bc.req = true ∧ (∃ i : Fin Config.nch, s.bc.ch[i].active = false) ∧
    let span : Int := s.P[6].toNat * s.P[7].toNat
    ¬ (0 ≤ (s.P[5].toNat : Int) - span / 2 ∧ (s.P[5].toNat : Int) - span / 2 + span ≤ 65535)

/-- Arm A: a dormant channel takes the pending request, snapshots the message and commands the start
frequency of bit 7, the bottom for a 1 and the top for a 0 (R178, R177). For slope 0 or duration 0 this is
the model's choice (log entry 7). -/
def Obligations.BtickDispatchesDormantChannel : Prop :=
  ∀ (s t : State) (i : Fin Config.nch), exec .btick s = .next t →
    s.bc.req = true → s.bc.ch[i].active = false →
    let c := t.bc.ch[i]
    let q := s.bcParams
    c.message = s.bc.message ∧ c.bitCursor = 0 ∧ c.inPause = false ∧ c.pauseCount = 0 ∧
    c.active = true ∧
    (if s.bc.message.getLsbD 7 then
      c.startFreq = q.bottom ∧ c.endFreq = q.top ∧ c.stepFreq = q.slope.toNat
     else c.startFreq = q.top ∧ c.endFreq = q.bottom ∧ c.stepFreq = -(q.slope.toNat : Int)) ∧
    (c.currentFreq.toNat : Int) = c.startFreq

/-- Arm B: a paused channel counts, and resumes with the next bit on the tick the count exceeds `P[8]`,
its bounds recovered from its own fields (R181). -/
def Obligations.BtickCountsPause : Prop :=
  ∀ (s t : State) (i : Fin Config.nch), exec .btick s = .next t → ChannelOk s.bc.ch[i] →
    s.bc.ch[i].active = true → s.bc.ch[i].inPause = true →
    let c := s.bc.ch[i]
    let c' := t.bc.ch[i]
    let low := min c.startFreq c.endFreq
    let high := max c.startFreq c.endFreq
    (c.pauseCount.toNat + 1 ≤ s.P[8].toNat →
      c'.pauseCount.toNat = c.pauseCount.toNat + 1 ∧
      c' = { c with pauseCount := c'.pauseCount }) ∧
    (s.P[8].toNat < c.pauseCount.toNat + 1 →
      c'.inPause = false ∧ c'.pauseCount = 0 ∧ c'.active = true ∧ c'.message = c.message ∧
      c'.bitCursor = c.bitCursor ∧
      (if c.message.getLsbD (7 - c.bitCursor.val) then
        c'.startFreq = low ∧ c'.endFreq = high ∧ c'.stepFreq = |c.stepFreq|
       else c'.startFreq = high ∧ c'.endFreq = low ∧ c'.stepFreq = -|c.stepFreq|) ∧
      (c'.currentFreq.toNat : Int) = c'.startFreq)

/-- Arm C: a ramping channel commands the stepped value unless it lies strictly beyond the end frequency;
then it commands silence, and either pauses before the next bit or, after the 8th, returns to the all-zero
record (R180). -/
def Obligations.BtickRampsChannel : Prop :=
  ∀ (s t : State) (i : Fin Config.nch), exec .btick s = .next t → ChannelOk s.bc.ch[i] →
    s.bc.ch[i].active = true → s.bc.ch[i].inPause = false →
    let c := s.bc.ch[i]
    let c' := t.bc.ch[i]
    let stepped := (c.currentFreq.toNat : Int) + c.stepFreq
    let crossed := (0 < c.stepFreq ∧ c.endFreq < stepped) ∨ (c.stepFreq < 0 ∧ stepped < c.endFreq)
    (¬ crossed →
      (c'.currentFreq.toNat : Int) = stepped ∧ c' = { c with currentFreq := c'.currentFreq }) ∧
    (crossed → c.bitCursor.val < 7 →
      c'.currentFreq = 0 ∧ c'.bitCursor.val = c.bitCursor.val + 1 ∧ c'.inPause = true ∧
      c'.pauseCount = 0 ∧
      c' = { c with
        currentFreq := c'.currentFreq, bitCursor := c'.bitCursor, inPause := c'.inPause,
        pauseCount := c'.pauseCount }) ∧
    (crossed → c.bitCursor.val = 7 → ChannelZero c')

/-- Arm D, and a channel that hangs: a dormant channel with no request pending stays as it is, and a
ramping channel whose step is 0 commands its frequency for ever (R176, R237; that the model
runs it is log entry 7). -/
def Obligations.BtickLeavesChannel : Prop :=
  ∀ (s t : State) (i : Fin Config.nch), exec .btick s = .next t →
    ((s.bc.ch[i].active = false ∧ s.bc.req = false) ∨
     (s.bc.ch[i].active = true ∧ s.bc.ch[i].inPause = false ∧ s.bc.ch[i].stepFreq = 0)) →
    t.bc.ch[i] = s.bc.ch[i]

/-- The request is cleared exactly by the BTICK in which the last channel dispatches; if that channel is
active the request stays (R179). -/
def Obligations.BtickClearsRequest : Prop :=
  ∀ s t : State, exec .btick s = .next t →
    t.bc.req = (s.bc.req && s.bc.ch[Config.nch - 1].active)

/-- One request, one broadcast on every channel in one tick: from lockstep with the channels dormant and a
request pending, every channel is active after the BTICK and the request is gone; with the channels active
none dispatches and the request waits (R179). For slope 0 or duration 0 this is the model's choice (log
entry 7). -/
def Obligations.OneRequestOneBroadcast : Prop :=
  ∀ s t : State, BroadcasterOk s.bc → s.bc.req = true → exec .btick s = .next t →
    ((∀ i : Fin Config.nch, s.bc.ch[i].active = false) ∧ t.bc.req = false ∧
      (∀ i : Fin Config.nch, t.bc.ch[i].active = true ∧ t.bc.ch[i].message = s.bc.message ∧
        t.bc.ch[i].bitCursor = 0)) ∨
    ((∀ i : Fin Config.nch, s.bc.ch[i].active = true) ∧ t.bc.req = true)

/-- The number of BTICKs of a broadcast, the dispatching one included: under `WF_BC`, `8d + 7Q + 16` with
`d = P[7]` and `Q = P[8]`. After every smaller number of them each channel is active, and after that number
each channel is the all-zero record again and the request is gone (R183). -/
def Obligations.BroadcastLength : Prop :=
  ∀ s : State, BroadcasterOk s.bc → s.bc.req = true → s.bcParams.wfBc = true →
    (∀ i : Fin Config.nch, s.bc.ch[i].active = false) →
    let len := 8 * s.P[7].toNat + 7 * s.P[8].toNat + 16
    (∀ k, 0 < k → k < len → ∃ t, runWords (List.replicate k 0x22000000) s = .next t ∧
      ∀ i : Fin Config.nch, t.bc.ch[i].active = true) ∧
    ∃ t, runWords (List.replicate len 0x22000000) s = .next t ∧ t.bc.req = false ∧
      ∀ i : Fin Config.nch, ChannelZero t.bc.ch[i]

/-! ### The beacon (44_beacon.md) -/

/-- IREQ latches the request and nothing else, whatever was latched (R192). -/
def Obligations.IreqLatchesRequest : Prop :=
  ∀ s : State, ∃ t, exec .ireq s = .next t ∧
    t.beacon = { s.beacon with req := true } ∧ KeepsParams s t ∧ KeepsEngine s t ∧
    KeepsBroadcaster s t ∧ Emits s t [] ∧ Answers s t .ok 0

/-- ITICK in all its arms: the start, the hold, the end of the hold on exactly the channels of the held
mask, and nothing when dormant with no request; the latch is clear after it in every case, so a request
seen while active is dropped (R193, R194). -/
def Obligations.ItickFollowsItsArms : Prop :=
  encode .itick = 0x31000000 ∧
  ∀ s : State,
    let b := s.beacon
    let tone := fun (mask : BitVec Config.nch) (f : Freq) =>
      (List.finRange Config.nch).flatMap fun i =>
        if mask.getLsbD i.val then [ActEvent.mk .id (BitVec.ofNat 4 i.val) f] else []
    ∃ t, exec .itick s = .next t ∧ KeepsParams s t ∧ KeepsEngine s t ∧ KeepsBroadcaster s t ∧
      t.beacon.req = false ∧
      (b.idActive = false → b.req = true →
        t.beacon.idActive = true ∧ t.beacon.idCounter = 0 ∧
        (∀ k, k < Config.nch → t.beacon.heldMask.getLsbD k = s.P[10].getLsbD k) ∧
        Emits s t (tone t.beacon.heldMask s.P[9]) ∧ Answers s t .ok 1) ∧
      (b.idActive = false → b.req = false →
        KeepsBeacon s t ∧ Emits s t [] ∧ Answers s t .ok 0) ∧
      (b.idActive = true → b.idCounter.toNat + 1 < s.P[11].toNat →
        t.beacon.idActive = true ∧ t.beacon.idCounter.toNat = b.idCounter.toNat + 1 ∧
        t.beacon.heldMask = b.heldMask ∧ Emits s t [] ∧ Answers s t .ok 1) ∧
      (b.idActive = true → s.P[11].toNat ≤ b.idCounter.toNat + 1 →
        t.beacon.idActive = false ∧ t.beacon.idCounter = 0 ∧ t.beacon.heldMask = 0 ∧
        Emits s t (tone b.heldMask 0) ∧ Answers s t .ok 0)

/-- The hold length: from the state a starting ITICK leaves, the beacon holds without an event for every
number of ITICKs below `max(P[11], 1)`, and at that one commands silence on the held channels and is
dormant (R193 (a)). -/
def Obligations.BeaconHoldLength : Prop :=
  ∀ s : State, s.beacon.idActive = true → s.beacon.idCounter = 0 →
    let len := max s.P[11].toNat 1
    (∀ k, k < len → ∃ t, runWords (List.replicate k 0x31000000) s = .next t ∧
      t.beacon.idActive = true ∧ t.beacon.idCounter.toNat = k ∧
      t.beacon.heldMask = s.beacon.heldMask ∧ Emits s t []) ∧
    ∃ t, runWords (List.replicate len 0x31000000) s = .next t ∧ t.beacon.idActive = false ∧
      Emits s t (beaconEvents s.beacon.heldMask 0)

/-! ### Invariants (10_state.md R30, R33, R34) -/

/-- The machine invariant holds after reset. -/
def Obligations.ResetMeetsInvariants : Prop := MachineOk State.reset

/-- Every step keeps the machine invariant: the engine invariants R30 (a) to (f), lockstep and the channel
invariants R33, the beacon invariant R34, and the legal parameter values R112, from every state that has
them, through commands, illegal words and reset alike. -/
def Obligations.StepKeepsInvariants : Prop :=
  ∀ s t : State, MachineOk s → step s = .next t → MachineOk t

/-- The same for the engine alone, of every command: R30 needs nothing of the other units. -/
def Obligations.CommandsKeepEngineInvariants : Prop :=
  ∀ (i : Instr) (s t : State), EngineOk s.eng → exec i s = .next t → EngineOk t.eng

/-- Lockstep for any number of channels: where every channel satisfies its invariant and the dispatch, if
there is one, is in range, a tick of the broadcaster keeps the channels equal field for field (R33 (a),
R182). For slope 0 or duration 0 this is the model's choice (log entry 7). -/
def Obligations.LockstepForAnyChannelCount : Prop :=
  ∀ (n : Nat) (b : Bc n) (q : BcParams) (count : Nat), BroadcasterOk b →
    (b.dispatches = true → q.inFreqRange = true) → BroadcasterOk (b.ticked q count)

/-! ### Any implementation parameters (00_scope.md R7, R13, R14) -/

/-- `decode`, `exec` and `step` are those of the step function with the values of R7, and these are values a
model may take. -/
def Obligations.StepTakesTheParameters : Prop :=
  Config.params.wf = true ∧ (∀ w, decode w = decodeFor Config.params w) ∧
  (∀ (i : Instr) (s : State), exec i s = execFor Config.params i s) ∧
  ∀ s : State, step s = stepFor Config.params s

/-- Decoding and encoding agree for any parameters: a word decodes to a command exactly if it is the word of
that command and the command is well-formed. -/
def Obligations.DecodeOfEncodeForAnyParameters : Prop :=
  ∀ (p : Config.Params) (w : Word) (i : Instr),
    decodeFor p w = .ok i ↔ i.wfFor p = true ∧ encode i = w

/-- PSET of the beacon's mask for any number of channels, as a step: written if every bit lies below `NCH`,
else ILLEGAL (R110, R89 (d), R112). -/
def Obligations.PsetMaskForAnyParameters : Prop :=
  ∀ (p : Config.Params) (s : State.Of p.nch) (v : Half) (rest : List PortInput),
    s.port.input = .command (encode (.pset 10 v)) :: rest →
    ∃ t, stepFor p s = .next t ∧ KeepsEngine s t ∧ KeepsBroadcaster s t ∧ KeepsBeacon s t ∧
      Emits s t [] ∧
      if v.toNat < 2 ^ p.nch then
        Answers (popInput rest s) t .ok 0 ∧
        ∀ j : Fin Config.nparam, t.P[j] = if j.val = 10 then v else s.P[j]
      else Answers (popInput rest s) t .illegal 0 ∧ KeepsParams s t

/-- BTICK for any number of channels from 1 to 16: the mask, the events in ascending order, and the request
cleared by the last channel (R176, R179, R83). For slope 0 or duration 0 at a dispatch it is the model's
choice that it runs (log entry 7). -/
def Obligations.BtickForAnyParameters : Prop :=
  ∀ (p : Config.Params) (s : State.Of p.nch), p.wf = true →
    (s.bc.dispatches = true → s.bcParams.inFreqRange = true) →
    ∃ (t : State.Of p.nch) (mask : Half), execFor p .btick s = .next t ∧ Answers s t .ok mask ∧
      (∀ i : Fin p.nch, mask.getLsbD i.val = t.bc.ch[i].active) ∧
      (∀ k, p.nch ≤ k → mask.getLsbD k = false) ∧
      Emits s t ((List.finRange p.nch).flatMap fun k =>
        changeEvent .bc (BitVec.ofNat 4 k.val) s.bc.ch[k].currentFreq t.bc.ch[k].currentFreq) ∧
      (∀ i : Fin p.nch, i.val + 1 = p.nch → t.bc.req = (s.bc.req && s.bc.ch[i].active)) ∧
      t.bc.message = s.bc.message ∧ KeepsParams s t ∧ KeepsEngine s t ∧ KeepsBeacon s t

/-- The machine invariant for any parameters: it holds after reset, and every step keeps it from every state
that has it. -/
def Obligations.StepKeepsInvariantsForAnyParameters : Prop :=
  ∀ p : Config.Params, MachineOk (State.Of.reset p.nch) ∧
    ∀ s t : State.Of p.nch, MachineOk s → stepFor p s = .next t → MachineOk t
end

