-- ==== Sys2Proof/Laws/State.lean ====
section
/-! SUPPORT. What each shared operation leaves in each field of the state, one lemma a field, so that no
proof unfolds a record update. -/

namespace Sys2Proof.Machine

variable {n : Nat}

/-! ### `emitAll` -/

@[simp] theorem emitAll_P (es : List ActEvent) (s : State.Of n) : (emitAll es s).P = s.P := rfl
@[simp] theorem emitAll_eng (es : List ActEvent) (s : State.Of n) : (emitAll es s).eng = s.eng := rfl
@[simp] theorem emitAll_bc (es : List ActEvent) (s : State.Of n) : (emitAll es s).bc = s.bc := rfl
@[simp] theorem emitAll_beacon (es : List ActEvent) (s : State.Of n) :
    (emitAll es s).beacon = s.beacon := rfl
@[simp] theorem emitAll_events (es : List ActEvent) (s : State.Of n) :
    (emitAll es s).port.events = s.port.events ++ es := rfl
@[simp] theorem emitAll_responses (es : List ActEvent) (s : State.Of n) :
    (emitAll es s).port.responses = s.port.responses := rfl
@[simp] theorem emitAll_input (es : List ActEvent) (s : State.Of n) :
    (emitAll es s).port.input = s.port.input := rfl
@[simp] theorem emitAll_freeCount (es : List ActEvent) (s : State.Of n) :
    (emitAll es s).freeCount = s.freeCount := rfl

/-! ### `respond` and `answerError` -/

@[simp] theorem respond_P (st : Status) (v : Half) (s : State.Of n) : (respond st v s).P = s.P := rfl
@[simp] theorem respond_eng (st : Status) (v : Half) (s : State.Of n) :
    (respond st v s).eng = s.eng := rfl
@[simp] theorem respond_bc (st : Status) (v : Half) (s : State.Of n) : (respond st v s).bc = s.bc := rfl
@[simp] theorem respond_beacon (st : Status) (v : Half) (s : State.Of n) :
    (respond st v s).beacon = s.beacon := rfl
@[simp] theorem respond_events (st : Status) (v : Half) (s : State.Of n) :
    (respond st v s).port.events = s.port.events := rfl
@[simp] theorem respond_responses (st : Status) (v : Half) (s : State.Of n) :
    (respond st v s).port.responses = s.port.responses ++ [respWord st v] := rfl
@[simp] theorem respond_input (st : Status) (v : Half) (s : State.Of n) :
    (respond st v s).port.input = s.port.input := rfl
@[simp] theorem respond_freeCount (st : Status) (v : Half) (s : State.Of n) :
    (respond st v s).freeCount = s.freeCount + 1 := rfl

/-- An error answer is a response with value 0. -/
theorem answerError_eq_respond (st : Status) (s : State.Of n) : answerError st s = respond st 0 s := rfl

/-! ### `writeParam` -/

@[simp] theorem writeParam_eng (i : Fin Config.nparam) (v : Half) (s : State.Of n) :
    (writeParam i v s).eng = s.eng := rfl
@[simp] theorem writeParam_bc (i : Fin Config.nparam) (v : Half) (s : State.Of n) :
    (writeParam i v s).bc = s.bc := rfl
@[simp] theorem writeParam_beacon (i : Fin Config.nparam) (v : Half) (s : State.Of n) :
    (writeParam i v s).beacon = s.beacon := rfl
@[simp] theorem writeParam_port (i : Fin Config.nparam) (v : Half) (s : State.Of n) :
    (writeParam i v s).port = s.port := rfl
@[simp] theorem writeParam_freeCount (i : Fin Config.nparam) (v : Half) (s : State.Of n) :
    (writeParam i v s).freeCount = s.freeCount := rfl

/-- A read after a write: the register written holds the value, every other is as before. -/
theorem writeParam_get (i j : Fin Config.nparam) (v : Half) (s : State.Of n) :
    (writeParam i v s).P[j] = if j = i then v else s.P[j] := by
  simp only [writeParam, Fin.getElem_fin, Vector.getElem_set, Fin.ext_iff, eq_comm]

/-! ### `clearTx` -/

@[simp] theorem clearTx_P (s : State.Of n) : (clearTx s).P = s.P := rfl
@[simp] theorem clearTx_bc (s : State.Of n) : (clearTx s).bc = s.bc := rfl
@[simp] theorem clearTx_beacon (s : State.Of n) : (clearTx s).beacon = s.beacon := rfl
@[simp] theorem clearTx_port (s : State.Of n) : (clearTx s).port = s.port := rfl
@[simp] theorem clearTx_freeCount (s : State.Of n) : (clearTx s).freeCount = s.freeCount := rfl
@[simp] theorem clearTx_existsBit (s : State.Of n) : (clearTx s).eng.existsBit = s.eng.existsBit := rfl
@[simp] theorem clearTx_cfg (s : State.Of n) : (clearTx s).eng.cfg = s.eng.cfg := rfl
@[simp] theorem clearTx_symbols (s : State.Of n) :
    (clearTx s).eng.symbols = Vector.replicate 8 .low := rfl
@[simp] theorem clearTx_symbolIndex (s : State.Of n) : (clearTx s).eng.symbolIndex = 0 := rfl
@[simp] theorem clearTx_tickCounter (s : State.Of n) : (clearTx s).eng.tickCounter = 0 := rfl
@[simp] theorem clearTx_currentFreq (s : State.Of n) :
    (clearTx s).eng.currentFreq = s.eng.currentFreq := rfl
@[simp] theorem clearTx_isTransmitting (s : State.Of n) : (clearTx s).eng.isTransmitting = false := rfl

/-! ### `setPosition` -/

@[simp] theorem setPosition_P (k : Fin 9) (t : Int) (s : State.Of n) : (setPosition k t s).P = s.P := rfl
@[simp] theorem setPosition_bc (k : Fin 9) (t : Int) (s : State.Of n) :
    (setPosition k t s).bc = s.bc := rfl
@[simp] theorem setPosition_beacon (k : Fin 9) (t : Int) (s : State.Of n) :
    (setPosition k t s).beacon = s.beacon := rfl
@[simp] theorem setPosition_port (k : Fin 9) (t : Int) (s : State.Of n) :
    (setPosition k t s).port = s.port := rfl
@[simp] theorem setPosition_freeCount (k : Fin 9) (t : Int) (s : State.Of n) :
    (setPosition k t s).freeCount = s.freeCount := rfl
@[simp] theorem setPosition_existsBit (k : Fin 9) (t : Int) (s : State.Of n) :
    (setPosition k t s).eng.existsBit = s.eng.existsBit := rfl
@[simp] theorem setPosition_cfg (k : Fin 9) (t : Int) (s : State.Of n) :
    (setPosition k t s).eng.cfg = s.eng.cfg := rfl
@[simp] theorem setPosition_symbols (k : Fin 9) (t : Int) (s : State.Of n) :
    (setPosition k t s).eng.symbols = s.eng.symbols := rfl
@[simp] theorem setPosition_symbolIndex (k : Fin 9) (t : Int) (s : State.Of n) :
    (setPosition k t s).eng.symbolIndex = k := rfl
@[simp] theorem setPosition_tickCounter (k : Fin 9) (t : Int) (s : State.Of n) :
    (setPosition k t s).eng.tickCounter = BitVec.ofInt 17 t := rfl
@[simp] theorem setPosition_currentFreq (k : Fin 9) (t : Int) (s : State.Of n) :
    (setPosition k t s).eng.currentFreq = s.eng.currentFreq := rfl
@[simp] theorem setPosition_isTransmitting (k : Fin 9) (t : Int) (s : State.Of n) :
    (setPosition k t s).eng.isTransmitting = s.eng.isTransmitting := rfl

/-! ### `popInput`, `pushInput`, `resetUnits` -/

@[simp] theorem popInput_P (ps : List PortInput) (s : State.Of n) : (popInput ps s).P = s.P := rfl
@[simp] theorem popInput_eng (ps : List PortInput) (s : State.Of n) : (popInput ps s).eng = s.eng := rfl
@[simp] theorem popInput_bc (ps : List PortInput) (s : State.Of n) : (popInput ps s).bc = s.bc := rfl
@[simp] theorem popInput_beacon (ps : List PortInput) (s : State.Of n) :
    (popInput ps s).beacon = s.beacon := rfl
@[simp] theorem popInput_input (ps : List PortInput) (s : State.Of n) :
    (popInput ps s).port.input = ps := rfl
@[simp] theorem popInput_events (ps : List PortInput) (s : State.Of n) :
    (popInput ps s).port.events = s.port.events := rfl
@[simp] theorem popInput_responses (ps : List PortInput) (s : State.Of n) :
    (popInput ps s).port.responses = s.port.responses := rfl
@[simp] theorem popInput_freeCount (ps : List PortInput) (s : State.Of n) :
    (popInput ps s).freeCount = s.freeCount := rfl

@[simp] theorem pushInput_input (p : PortInput) (s : State.Of n) :
    (pushInput p s).port.input = p :: s.port.input := rfl

/-- Taking back the input just offered gives the state as it was. -/
@[simp] theorem popInput_pushInput (p : PortInput) (s : State.Of n) :
    popInput s.port.input (pushInput p s) = s := rfl

@[simp] theorem resetUnits_P (s : State.Of n) : (resetUnits s).P = (State.Of.reset n).P := rfl
@[simp] theorem resetUnits_eng (s : State.Of n) : (resetUnits s).eng = (State.Of.reset n).eng := rfl
@[simp] theorem resetUnits_bc (s : State.Of n) : (resetUnits s).bc = (State.Of.reset n).bc := rfl
@[simp] theorem resetUnits_beacon (s : State.Of n) : (resetUnits s).beacon = (State.Of.reset n).beacon := rfl
@[simp] theorem resetUnits_port (s : State.Of n) : (resetUnits s).port = s.port := rfl

/-! ### `command` (42_tone_engine.md R132) -/

/-- `Command` changes one field of the engine. -/
theorem command_eng (f : Int) (s : State.Of n) :
    (command f s).eng = { s.eng with currentFreq := narrowFreq s.freeCount 0 f } := by
  unfold command
  by_cases h : narrowFreq s.freeCount 0 f = s.eng.currentFreq
  · simp [h]
  · simp [h]

/-- `Command` emits one event exactly when the commanded frequency changes. -/
@[simp] theorem command_events (f : Int) (s : State.Of n) :
    (command f s).port.events =
      s.port.events ++ changeEvent .eng 0 s.eng.currentFreq (narrowFreq s.freeCount 0 f) := by
  unfold command changeEvent
  by_cases h : narrowFreq s.freeCount 0 f = s.eng.currentFreq
  · simp [h]
  · simp [h]

@[simp] theorem command_P (f : Int) (s : State.Of n) : (command f s).P = s.P := by
  unfold command; dsimp only; split <;> rfl
@[simp] theorem command_bc (f : Int) (s : State.Of n) : (command f s).bc = s.bc := by
  unfold command; dsimp only; split <;> rfl
@[simp] theorem command_beacon (f : Int) (s : State.Of n) : (command f s).beacon = s.beacon := by
  unfold command; dsimp only; split <;> rfl
@[simp] theorem command_responses (f : Int) (s : State.Of n) :
    (command f s).port.responses = s.port.responses := by
  unfold command; dsimp only; split <;> rfl
@[simp] theorem command_input (f : Int) (s : State.Of n) :
    (command f s).port.input = s.port.input := by
  unfold command; dsimp only; split <;> rfl
@[simp] theorem command_freeCount (f : Int) (s : State.Of n) :
    (command f s).freeCount = s.freeCount := by
  unfold command; dsimp only; split <;> rfl
@[simp] theorem command_existsBit (f : Int) (s : State.Of n) :
    (command f s).eng.existsBit = s.eng.existsBit := by rw [command_eng]
@[simp] theorem command_cfg (f : Int) (s : State.Of n) : (command f s).eng.cfg = s.eng.cfg := by
  rw [command_eng]
@[simp] theorem command_symbols (f : Int) (s : State.Of n) :
    (command f s).eng.symbols = s.eng.symbols := by rw [command_eng]
@[simp] theorem command_symbolIndex (f : Int) (s : State.Of n) :
    (command f s).eng.symbolIndex = s.eng.symbolIndex := by rw [command_eng]
@[simp] theorem command_tickCounter (f : Int) (s : State.Of n) :
    (command f s).eng.tickCounter = s.eng.tickCounter := by rw [command_eng]
@[simp] theorem command_isTransmitting (f : Int) (s : State.Of n) :
    (command f s).eng.isTransmitting = s.eng.isTransmitting := by rw [command_eng]
@[simp] theorem command_currentFreq (f : Int) (s : State.Of n) :
    (command f s).eng.currentFreq = narrowFreq s.freeCount 0 f := by rw [command_eng]

end Sys2Proof.Machine
end

