-- ==== Sys2Proof/Laws/Words.lean ====
section
/-! SUPPORT. The fields of a word made by appending, and what the decoder's and the encoder's parts do
(30_encoding.md R81, R86). -/

namespace Sys2Proof

/-! ### Appended fields -/

/-- The low part of an appended word. -/
theorem append_low {n m : Nat} (x : BitVec n) (y : BitVec m) :
    (x ++ y).extractLsb' 0 m = y := by
  ext i hi
  simp [BitVec.getLsbD_append, hi]

/-- The high part of an appended word. -/
theorem append_high {n m : Nat} (x : BitVec n) (y : BitVec m) :
    (x ++ y).extractLsb' m n = x := by
  ext i hi
  simp [BitVec.getLsbD_append, hi]

/-- A field that lies in the high part of an appended word. -/
theorem extract_append {n m a k : Nat} (x : BitVec n) (y : BitVec m) :
    (x ++ y).extractLsb' (m + a) k = x.extractLsb' a k := by
  ext i hi
  have : ¬ (m + a + i < m) := by omega
  simp [BitVec.getLsbD_append]
  rw [if_neg this]; congr 1; omega

/-- A word is its three fields (R81). -/
theorem word_fields (w : Word) : (opField w ++ idxField w ++ dataField w : Word) = w := by
  apply BitVec.eq_of_toNat_eq
  have e : (opField w ++ idxField w ++ dataField w : Word).toNat =
      ((opField w).toNat * 2 ^ 8 + (idxField w).toNat) * 2 ^ 16 + (dataField w).toNat := by
    erw [BitVec.toNat_append, BitVec.toNat_append]
    rw [← Nat.shiftLeft_add_eq_or_of_lt (dataField w).isLt,
      ← Nat.shiftLeft_add_eq_or_of_lt (idxField w).isLt]
    simp [Nat.shiftLeft_eq]
  rw [e]
  simp [opField, idxField, dataField, BitVec.extractLsb'_toNat, Nat.shiftRight_eq_div_pow]
  have := w.isLt
  omega

/-! ### The encoder's fields -/

/-- `OP` of a command's word. -/
theorem opField_encode (i : Instr) : opField (encode i) = i.op.code := by
  have := extract_append (a := 8) (k := 8) (i.op.code ++ i.idxOperand) i.dataOperand
  exact this.trans (append_high _ _)

/-- `IDX` of a command's word. -/
theorem idxField_encode (i : Instr) : idxField (encode i) = i.idxOperand := by
  have := extract_append (a := 0) (k := 8) (i.op.code ++ i.idxOperand) i.dataOperand
  exact this.trans (append_low _ _)

/-- `DATA` of a command's word. -/
theorem dataField_encode (i : Instr) : dataField (encode i) = i.dataOperand :=
  append_low (i.op.code ++ i.idxOperand) i.dataOperand

/-! ### The opcode map -/

/-- Every row is found by its own `OP` value. -/
theorem ofCode_code (o : Op) : Op.ofCode o.code = some o := by cases o <;> decide

/-- A row found by an `OP` value has that value. -/
theorem code_of_ofCode {c : Byte} {o : Op} (h : Op.ofCode c = some o) : o.code = c := by
  have := List.find?_some h
  simpa using this

/-- The unassigned opcodes. -/
theorem ofCode_none {c : Byte} : Op.ofCode c = none ↔ ∀ o : Op, c ≠ o.code := by
  rw [Op.ofCode, List.find?_eq_none]
  constructor
  · intro h o hc
    exact h o (by cases o <;> decide) (by rw [hc]; exact beq_self_eq_true _)
  · intro h o _ hc
    exact h o (eq_of_beq hc).symm

/-! ### The byte operand (R82) -/

theorem dataByte_zext (b : Byte) : dataByte (b.setWidth 16) = b := by
  ext i hi; simp [dataByte, hi, show i < 16 by omega]

theorem dataHigh_zext (b : Byte) : dataHigh (b.setWidth 16) = 0 := by
  ext i hi; simp [dataHigh]

theorem zext_dataByte (d : Half) (h : dataHigh d = 0) : (dataByte d).setWidth 16 = d := by
  apply BitVec.eq_of_toNat_eq
  have := congrArg BitVec.toNat h
  simp [dataHigh, dataByte, BitVec.extractLsb'_toNat, Nat.shiftRight_eq_div_pow] at this ⊢
  omega

/-! ### What the decoder accepts, format by format -/

theorem decodeN_eq_ok {i j : Instr} {idx : Byte} {data : Half} :
    decodeN i idx data = .ok j ↔ idx = 0 ∧ data = 0 ∧ i = j := by
  unfold decodeN
  split <;> [skip; split] <;> simp_all

theorem decodeB_eq_ok {mk : Byte → Instr} {j : Instr} {idx : Byte} {data : Half} :
    decodeB mk idx data = .ok j ↔ idx = 0 ∧ dataHigh data = 0 ∧ mk (dataByte data) = j := by
  unfold decodeB
  split <;> [skip; split] <;> simp_all

theorem decodeR_eq_ok {j : Instr} {idx : Byte} {data : Half} :
    decodeR idx data = .ok j ↔ data = 0 ∧ idx.toNat < 12 ∧ .pget idx = j := by
  unfold decodeR
  split <;> [skip; split] <;> simp_all

theorem decodeP_eq_ok {p : Config.Params} {j : Instr} {idx : Byte} {data : Half} :
    decodeP p idx data = .ok j ↔
      idx.toNat < 12 ∧ (idx.toNat = 4 → data.toNat ≤ 1) ∧
      (idx.toNat = 10 → data.toNat < 2 ^ p.nch) ∧ .pset idx data = j := by
  unfold decodeP
  split <;> [skip; (split <;> [skip; split])] <;> simp_all

end Sys2Proof
end

