-- ==== Sys2Proof/Laws/Ops.lean ====
section
/-! SUPPORT. What each pure function and each shared operation can do, said once. -/

namespace Sys2Proof.Machine

variable {n : Nat}

/-! ### Frequencies -/

/-- A number in the 16-bit range keeps its value; no free value enters. -/
theorem narrowFreq_toNat (count slot : Nat) (f : Int) (h0 : 0 ≤ f) (h1 : f ≤ 65535) :
    ((narrowFreq count slot f).toNat : Int) = f := by
  rw [narrowFreq, if_pos ⟨h0, h1⟩, BitVec.toNat_ofNat]
  omega

/-- A frequency written back is itself. -/
@[simp] theorem narrowFreq_freq (count slot : Nat) (f : Freq) :
    narrowFreq count slot (f.toNat : Int) = f := by
  have := f.isLt
  rw [narrowFreq, if_pos (by omega)]
  simp

/-- Silence is in range. -/
@[simp] theorem narrowFreq_zero (count slot : Nat) : narrowFreq count slot 0 = 0 := by
  simp [narrowFreq]

/-- In the 16-bit range the command and the slot do not matter. -/
theorem narrowFreq_slot (count slot slot' : Nat) (f : Int) (h0 : 0 ≤ f) (h1 : f ≤ 65535) :
    narrowFreq count slot f = narrowFreq count slot' f := by
  rw [narrowFreq, narrowFreq, if_pos ⟨h0, h1⟩, if_pos ⟨h0, h1⟩]

/-! ### Counters -/

/-- A tick counter written with a number in its range holds that number (10_state.md R27). -/
theorem tickCounter_toInt (t : Int) (h0 : -65536 ≤ t) (h1 : t ≤ 65535) :
    (BitVec.ofInt 17 t).toInt = t := by
  rw [BitVec.toInt_ofInt]
  have : ((2 : Nat) ^ 17) = 131072 := by norm_num
  simp only [this]
  exact Int.bmod_eq_of_le (by omega) (by omega)

/-- Below the top of its range an index goes up by one (10_state.md R26, R32). -/
theorem bump_val (count slot : Nat) (k : Fin 9) (h : k.val < 8) :
    (bump count slot k).val = k.val + 1 := by
  rw [bump, dif_pos (by omega)]

/-- Inside the plan the symbol is the plan's own. -/
theorem symbolAt_of_lt (count : Nat) (e : Eng) (k : Nat) (h : k < 8) :
    symbolAt count e k = e.symbols[k] := by
  rw [symbolAt, dif_pos h]

/-! ### The planner -/

/-- At tick 0 a symbol starts at one of the two bounds (41_symbol_codec.md R126). -/
theorem plan_zero (cfg : EngCfg) (sym : Symbol) :
    plan cfg sym 0 =
      ((if sym = .low ∨ sym = .up then cfg.lowFreq else cfg.highFreq).toNat : Int) := by
  cases sym <;> simp [plan]

/-- The first frequency of a symbol, as the register holds it. -/
@[simp] theorem narrowFreq_plan_zero (count slot : Nat) (cfg : EngCfg) (sym : Symbol) :
    narrowFreq count slot (plan cfg sym 0) =
      if sym = .low ∨ sym = .up then cfg.lowFreq else cfg.highFreq := by
  rw [plan_zero, narrowFreq_freq]

/-! ### The response word (30_encoding.md R83) -/

@[simp] theorem respStatus_respWord (st : Status) (v : Half) :
    respStatus (respWord st v) = st.code := by
  have := extract_append (a := 12) (k := 4) (st.code ++ 0#12) v
  exact this.trans (append_high _ _)

@[simp] theorem respValue_respWord (st : Status) (v : Half) : respValue (respWord st v) = v :=
  append_low (st.code ++ 0#12) v

@[simp] theorem respZero_respWord (st : Status) (v : Half) : (respWord st v).extractLsb' 16 12 = 0 := by
  have := extract_append (a := 0) (k := 12) (st.code ++ 0#12) v
  exact this.trans (append_low _ _)

end Sys2Proof.Machine
end

