-- ==== Sys2Proof/Laws/Beacon.lean ====
section
/-! SUPPORT. What an ITICK leaves of the beacon, arm by arm (44_beacon.md R193). -/

namespace Sys2Proof.Machine

variable {n : Nat}

/-- Arm A. -/
theorem ticked_start {n : Nat} (mask ticks : Half) (b : Beacon n) (ha : b.idActive = false)
    (hr : b.req = true) : b.ticked mask ticks = b.start mask := by
  simp [Beacon.ticked, ha, hr]

/-- Arm D. -/
theorem ticked_dormant {n : Nat} (mask ticks : Half) (b : Beacon n) (ha : b.idActive = false)
    (hr : b.req = false) : b.ticked mask ticks = b := by
  simp [Beacon.ticked, ha, hr]

/-- Arm C, the hold goes on: the count stays in its 16 bits. -/
theorem ticked_hold {n : Nat} (mask ticks : Half) (b : Beacon n) (ha : b.idActive = true)
    (h : b.idCounter.toNat + 1 < ticks.toNat) :
    (b.ticked mask ticks).idActive = true ∧ (b.ticked mask ticks).req = false ∧
    (b.ticked mask ticks).heldMask = b.heldMask ∧
    (b.ticked mask ticks).idCounter.toNat = b.idCounter.toNat + 1 := by
  have hlt := ticks.isLt
  have ho : b.holdOver ticks = false := by simp [Beacon.holdOver]; omega
  simp [Beacon.ticked, Beacon.hold, ha, ho]
  omega

/-- Arm C2, the hold is over. -/
theorem ticked_over {n : Nat} (mask ticks : Half) (b : Beacon n) (ha : b.idActive = true)
    (h : ticks.toNat ≤ b.idCounter.toNat + 1) :
    b.ticked mask ticks = Beacon.reset n := by
  have ho : b.holdOver ticks = true := by simp [Beacon.holdOver]; omega
  simp [Beacon.ticked, Beacon.hold, Beacon.reset, ha, ho]

/-- After an ITICK the latch is clear (44_beacon.md R194). -/
theorem ticked_req {n : Nat} (mask ticks : Half) (b : Beacon n) :
    (b.ticked mask ticks).req = false := by
  cases ha : b.idActive <;> cases hr : b.req
  · rw [ticked_dormant mask ticks b ha hr]; exact hr
  · rw [ticked_start mask ticks b ha hr]; rfl
  · simp [Beacon.ticked, Beacon.hold, ha]; split <;> rfl
  · simp [Beacon.ticked, Beacon.hold, ha]; split <;> rfl

end Sys2Proof.Machine
end

