-- ==== Sys2Proof/Laws/Channels.lean ====
section
/-! SUPPORT. What one channel's part of a BTICK can do, and what a BTICK does to all channels
(43_broadcaster.md R173, R176 to R181). -/

namespace Sys2Proof.Machine

variable {n : Nat}

/-! ### `Push` (R173) -/

theorem push_ch (count slot : Nat) (r : ChannelStep) :
    (push count slot r).ch = { r.ch with currentFreq := narrowFreq count slot r.next } := by
  unfold push
  by_cases h : narrowFreq count slot r.next = r.ch.currentFreq
  · simp [h]
  · simp [h]

theorem push_events (count slot : Nat) (r : ChannelStep) :
    (push count slot r).events =
      changeEvent .bc (BitVec.ofNat 4 slot) r.ch.currentFreq (narrowFreq count slot r.next) := by
  unfold push changeEvent
  by_cases h : narrowFreq count slot r.next = r.ch.currentFreq
  · simp [h]
  · simp [h]

theorem push_dispatched (count slot : Nat) (r : ChannelStep) :
    (push count slot r).dispatched = r.dispatched := by
  unfold push; dsimp only; split <;> rfl

/-! ### `LoadBit` (R177) -/

theorem loadBit_currentFreq (count slot : Nat) (bottom top step : Int) (c : Channel) :
    (loadBit count slot bottom top step c).currentFreq = c.currentFreq := by
  unfold loadBit; split <;> rfl

/-- Inside the byte the bit is the byte's own. -/
theorem bit_of_lt (count slot : Nat) (c : Channel) (h : c.bitCursor.val < 8) :
    c.bit count slot = c.message.getLsbD (7 - c.bitCursor.val) := by
  rw [Channel.bit, if_pos h]

/-! ### The step before the `Push` -/

/-- Only `Push` writes a channel's commanded frequency. -/
theorem channelStep_currentFreq (q : BcParams) (req : Bool) (msg : Byte) (count slot : Nat)
    (c : Channel) : (channelStep q req msg count slot c).ch.currentFreq = c.currentFreq := by
  unfold channelStep
  split
  · simp only [channelDispatch, loadBit_currentFreq]
  · split
    · unfold channelPaused
      split
      · simp only [loadBit_currentFreq]
      · rfl
    · split
      · unfold channelRamp
        dsimp only
        split
        · split
          · rfl
          · rfl
        · rfl
      · rfl

/-- A channel dispatches exactly when it is dormant and the request is pending (R178). -/
theorem channelStep_dispatched (q : BcParams) (req : Bool) (msg : Byte) (count slot : Nat)
    (c : Channel) : (channelStep q req msg count slot c).dispatched = (req && !c.active) := by
  unfold channelStep
  by_cases h1 : req = true ∧ c.active = false
  · rw [if_pos h1]; simp [channelDispatch, h1.1, h1.2]
  · rw [if_neg h1]
    have h2 : (req && !c.active) = false := by
      cases req <;> cases hc : c.active <;> simp_all
    rw [h2]
    split
    · unfold channelPaused; split <;> rfl
    · split
      · unfold channelRamp; dsimp only; split <;> [split; skip] <;> rfl
      · rfl

/-! ### The whole part of a channel -/

/-- A channel emits one event exactly when its commanded frequency changes (R173). -/
theorem channelTick_events (q : BcParams) (req : Bool) (msg : Byte) (count slot : Nat)
    (c : Channel) :
    (channelTick q req msg count slot c).events =
      changeEvent .bc (BitVec.ofNat 4 slot) c.currentFreq
        (channelTick q req msg count slot c).ch.currentFreq := by
  rw [channelTick, push_events, push_ch, channelStep_currentFreq]

/-! ### All channels -/

@[simp] theorem ticked_ch {n : Nat} (q : BcParams) (count : Nat) (b : Bc n) (i : Fin n) :
    (b.ticked q count).ch[i] = (b.part q count i).ch := by
  simp [Bc.ticked]

@[simp] theorem ticked_message {n : Nat} (q : BcParams) (count : Nat) (b : Bc n) :
    (b.ticked q count).message = b.message := rfl

/-- The last channel dispatches exactly when the request finds it dormant (R179). -/
theorem lastDispatches_eq {m : Nat} (q : BcParams) (count : Nat) (b : Bc (m + 1)) :
    b.lastDispatches q count = (b.req && !b.ch[Fin.last m].active) := by
  rw [Bc.lastDispatches, Bool.eq_iff_iff, List.any_eq_true]
  have hd : ∀ i : Fin (m + 1), (b.part q count i).dispatched = (b.req && !b.ch[i].active) := by
    intro i
    rw [Bc.part, channelTick, push_dispatched, channelStep_dispatched]
  constructor
  · rintro ⟨i, -, hi⟩
    simp only [Bool.and_eq_true, beq_iff_eq] at hi
    have : i = Fin.last m := Fin.ext (by simpa using hi.1)
    subst this
    rw [← hd]
    exact hi.2
  · intro h
    refine ⟨Fin.last m, List.mem_finRange _, ?_⟩
    rw [Bool.and_eq_true, hd]
    exact ⟨by simp, h⟩

/-- The same with the last channel named by its index. -/
theorem lastDispatches_of_last (q : BcParams) (count : Nat) (b : Bc n) (i : Fin n)
    (h : i.val + 1 = n) : b.lastDispatches q count = (b.req && !b.ch[i].active) := by
  cases n with
  | zero => exact i.elim0
  | succ m =>
    obtain rfl : i = Fin.last m := Fin.ext (by simpa using h)
    exact lastDispatches_eq q count b

/-- Whether a BTICK dispatches some channel (R178). -/
theorem dispatches_iff {n : Nat} (b : Bc n) :
    b.dispatches = true ↔ b.req = true ∧ ∃ i : Fin n, b.ch[i].active = false := by
  rw [Bc.dispatches, Bool.and_eq_true, List.any_eq_true]
  refine and_congr_right fun _ => ⟨?_, ?_⟩
  · rintro ⟨c, hc, ha⟩
    obtain ⟨i, hi, rfl⟩ := List.mem_iff_getElem.mp hc
    exact ⟨⟨i, by simpa using hi⟩, by simpa using ha⟩
  · rintro ⟨i, hi⟩
    exact ⟨b.ch[i], by simp, by simpa using hi⟩

/-! ### The channel invariant -/

/-- What `LoadBit` sets up from ordered bounds that are a whole number of steps apart. -/
theorem loadBit_ok (count slot : Nat) (bottom top step : Int) (d : Nat) (c : Channel)
    (h0 : 0 ≤ bottom) (h1 : top ≤ 65535) (hs : 0 ≤ step) (hs1 : step ≤ 65535)
    (hd : top = bottom + d * step) (ha : c.active = true) (hp : c.inPause = false)
    (hk : c.bitCursor.val ≤ 7) (hn : c.pauseCount = 0) (f : Freq)
    (hf : (f.toNat : Int) = (loadBit count slot bottom top step c).startFreq) :
    ChannelOk { loadBit count slot bottom top step c with currentFreq := f } := by
  have hle : bottom ≤ top := by rw [hd]; nlinarith [mul_nonneg (Int.natCast_nonneg d) hs]
  unfold loadBit at *
  split
  · rename_i hb
    rw [if_pos hb] at hf
    dsimp only at hf
    refine ⟨by simp [ha], by simp [hp], fun _ _ => ⟨hk, ?_, ?_⟩, fun _ _ => ⟨0, by simpa using hf⟩,
      fun _ => ⟨d, hd⟩, ?_, by simp [hn]⟩ <;> dsimp only <;> omega
  · rename_i hb
    rw [if_neg hb] at hf
    dsimp only at hf
    refine ⟨by simp [ha], by simp [hp], fun _ _ => ⟨hk, ?_, ?_⟩, fun _ _ => ⟨0, by simpa using hf⟩,
      fun _ => ⟨d, by dsimp only; linarith⟩, ?_, by simp [hn]⟩ <;> dsimp only <;> omega

/-- The start `LoadBit` sets is one of the bounds. -/
theorem loadBit_start_range (count slot : Nat) (bottom top step : Int) (c : Channel)
    (h0 : 0 ≤ bottom) (h1 : top ≤ 65535) (hle : bottom ≤ top) :
    0 ≤ (loadBit count slot bottom top step c).startFreq ∧
    (loadBit count slot bottom top step c).startFreq ≤ 65535 := by
  unfold loadBit
  split <;> dsimp only <;> omega

/-- A channel's part of a BTICK keeps the channel invariant (10_state.md R33). -/
theorem channelTick_ok (q : BcParams) (req : Bool) (msg : Byte) (count slot : Nat) (c : Channel)
    (hc : ChannelOk c) (hq : req = true → c.active = false → q.inFreqRange = true) :
    ChannelOk (channelTick q req msg count slot c).ch := by
  rw [channelTick, push_ch]
  unfold channelStep
  split
  · rename_i h
    have hr := hq h.1 h.2
    simp only [BcParams.inFreqRange, Bool.and_eq_true, decide_eq_true_eq] at hr
    have hs := q.slope.isLt
    have htop : q.top = q.bottom + (q.duration.toNat : Nat) * (q.slope.toNat : Int) := by
      simp [BcParams.top, BcParams.span]; ring
    have hle : q.bottom ≤ q.top := by simp [BcParams.top]
    dsimp only [channelDispatch]
    have := loadBit_start_range count slot q.bottom q.top q.slope.toNat
       { c with message := msg, bitCursor := 0, inPause := false, pauseCount := 0, active := true } hr.1 hr.2 hle
    exact loadBit_ok count slot _ _ _ q.duration.toNat _ hr.1 hr.2 (by omega) (by omega) htop rfl rfl (by simp) rfl _
      (narrowFreq_toNat _ _ _ this.1 this.2)
  · split
    · rename_i h
      unfold channelPaused
      have hp := hc.paused h.1 h.2
      obtain ⟨d, hd⟩ := hc.wholeSteps h.1
      have hr := hc.ranges
      split
      · dsimp only
        have hdir : max c.startFreq c.endFreq = min c.startFreq c.endFreq + d * |c.stepFreq| := by
          rcases le_total 0 c.stepFreq with hs | hs
          · have : 0 ≤ (d : Int) * c.stepFreq := mul_nonneg (by omega) hs
            rw [abs_of_nonneg hs, min_eq_left (by omega), max_eq_right (by omega), hd]
          · have : (d : Int) * c.stepFreq ≤ 0 := mul_nonpos_of_nonneg_of_nonpos (by omega) hs
            rw [abs_of_nonpos hs, min_eq_right (by omega), max_eq_left (by omega), hd]
            ring
        have := loadBit_start_range count slot (min c.startFreq c.endFreq) (max c.startFreq c.endFreq) |c.stepFreq|
          { c with inPause := false, pauseCount := 0 } (by omega) (by omega) (by omega)
        have ha0 := abs_nonneg c.stepFreq
        have ha1 : |c.stepFreq| ≤ 65535 := abs_le.mpr ⟨by omega, by omega⟩
        exact loadBit_ok count slot _ _ _ d { c with inPause := false, pauseCount := 0 } (by omega) (by omega) (by omega) (by omega) hdir h.1 rfl hp.2.2 rfl _
          (narrowFreq_toNat _ _ _ this.1 this.2)
      · dsimp only
        rw [narrowFreq_freq]
        have hlt := q.pause.isLt
        refine ⟨by simp [h.1], fun _ _ => hp, by simp [h.2], by simp [h.2], fun _ => ⟨d, hd⟩, hr, ?_⟩
        simp [h.2]; omega
    · split
      · rename_i hnp ha
        have hip : c.inPause = false := by simpa [ha] using hnp
        have hr := hc.ranges
        have hk := hc.ramping ha hip
        obtain ⟨m, hm⟩ := hc.onGrid ha hip
        unfold channelRamp
        dsimp only
        split
        · split
          · simp only [Channel.finish, narrowFreq_zero]
            refine ⟨fun _ => rfl, ?_, ?_, ?_, ?_, ?_, ?_⟩ <;> simp [Channel.zero]
          · rename_i h8
            have hb := bump_val count slot c.bitCursor (by omega)
            simp only [narrowFreq_zero]
            refine ⟨by simp [ha], fun _ _ => ⟨rfl, ?_, ?_⟩, by simp, by simp, fun _ => hc.wholeSteps ha, hr, by simp⟩ <;>
              dsimp only <;> omega
        · rename_i hx
          simp only [Channel.crossed, Bool.or_eq_true, Bool.and_eq_true, decide_eq_true_eq, not_or, not_and] at hx
          have hrange : min c.startFreq c.endFreq ≤ (c.currentFreq.toNat : Int) + c.stepFreq ∧ (c.currentFreq.toNat : Int) + c.stepFreq ≤ max c.startFreq c.endFreq := by
            have := hc.wholeSteps ha
            constructor <;> omega
          have hn := narrowFreq_toNat count slot ((c.currentFreq.toNat : Int) + c.stepFreq) (by omega) (by omega)
          refine ⟨by simp [ha], by simp [hip], fun _ _ => ⟨hk.1, ?_, ?_⟩, fun _ _ => ⟨m+1, ?_⟩, fun _ => hc.wholeSteps ha, hr, hc.pauseCount⟩
          · dsimp only; omega
          · dsimp only; omega
          · dsimp only; rw [hn, hm]; push_cast; ring
      · dsimp only
        rw [narrowFreq_freq]
        exact hc

/-- A channel's part of a BTICK does not depend on its index: the reason for lockstep (10_state.md R33
(a), 43_broadcaster.md R182). -/
theorem channelTick_slot (q : BcParams) (req : Bool) (msg : Byte) (count slot slot' : Nat) (c : Channel)
    (hc : ChannelOk c) (hq : req = true → c.active = false → q.inFreqRange = true) :
    (channelTick q req msg count slot c).ch = (channelTick q req msg count slot' c).ch := by
  rw [channelTick, channelTick, push_ch, push_ch]
  have hb : ∀ c : Channel, c.bitCursor.val ≤ 7 → c.bit count slot = c.bit count slot' := by
    intro c h
    rw [bit_of_lt _ _ _ (by omega), bit_of_lt _ _ _ (by omega)]
  have hl : ∀ (b t s : Int) (c : Channel), c.bitCursor.val ≤ 7 → loadBit count slot b t s c = loadBit count slot' b t s c := by
    intro b t s c h
    rw [loadBit, loadBit, hb c h]
  have hr := hc.ranges
  unfold channelStep
  split
  · rename_i h
    have hq := hq h.1 h.2
    simp only [BcParams.inFreqRange, Bool.and_eq_true, decide_eq_true_eq] at hq
    have hle : q.bottom ≤ q.top := by simp [BcParams.top]
    have := loadBit_start_range count slot' q.bottom q.top q.slope.toNat
       { c with message := msg, bitCursor := 0, inPause := false, pauseCount := 0, active := true } hq.1 hq.2 hle
    simp only [channelDispatch]
    rw [hl _ _ _ _ (by simp), narrowFreq_slot count slot slot' _ this.1 this.2]
  · split
    · rename_i h
      have hp := hc.paused h.1 h.2
      unfold channelPaused
      split
      · dsimp only
        have := loadBit_start_range count slot' (min c.startFreq c.endFreq) (max c.startFreq c.endFreq) |c.stepFreq|
          { c with inPause := false, pauseCount := 0 } (by omega) (by omega) (by omega)
        rw [hl _ _ _ { c with inPause := false, pauseCount := 0 } hp.2.2, narrowFreq_slot count slot slot' _ this.1 this.2]
      · simp only [narrowFreq_freq]
    · split
      · rename_i hnp ha
        have hip : c.inPause = false := by simpa [ha] using hnp
        have hk := hc.ramping ha hip
        unfold channelRamp
        dsimp only
        split
        · split
          · simp only [narrowFreq_zero]
          · simp only [narrowFreq_zero]
            rw [show bump count slot c.bitCursor = bump count slot' c.bitCursor from
              Fin.ext (by rw [bump_val _ _ _ (by omega), bump_val _ _ _ (by omega)])]
        · rename_i hx
          simp only [Channel.crossed, Bool.or_eq_true, Bool.and_eq_true, decide_eq_true_eq, not_or, not_and] at hx
          dsimp only
          rw [narrowFreq_slot count slot slot' _ (by omega) (by omega)]
      · simp only [narrowFreq_freq]


end Sys2Proof.Machine
end

