-- ==== Sys2Proof/Laws/Broadcaster.lean ====
section
/-! SUPPORT. What a whole BTICK can do (43_broadcaster.md R176). -/

namespace Sys2Proof.Machine

variable {n : Nat}

/-- A BTICK that dispatches nothing out of range ticks the channels, emits their events and answers the mask. -/
theorem execBtick_next (s : State.Of n) (h : s.bc.dispatches = true → s.bcParams.inFreqRange = true) :
    execBtick s = .next (respond .ok (activeMask (s.bc.ticked s.bcParams s.freeCount))
      (emitAll (s.bc.tickEvents s.bcParams s.freeCount)
        { s with bc := s.bc.ticked s.bcParams s.freeCount })) := by
  rw [execBtick]
  refine if_neg ?_
  rintro ⟨h1, h2⟩
  rw [h h1] at h2
  cases h2

/-- A BTICK that runs dispatched nothing out of range, and left the ticked broadcaster. -/
theorem execBtick_inv {s t : State.Of n} (h : execBtick s = .next t) :
    (s.bc.dispatches = true → s.bcParams.inFreqRange = true) ∧
    t.bc = s.bc.ticked s.bcParams s.freeCount := by
  rw [execBtick] at h
  by_cases hc : s.bc.dispatches = true ∧ s.bcParams.inFreqRange = false
  · dsimp only at h; rw [if_pos hc] at h; cases h
  · dsimp only at h; rw [if_neg hc] at h
    cases h
    exact ⟨fun h1 => by simpa using fun h2 => hc ⟨h1, h2⟩, rfl⟩

/-- Bit `i` of the answer is the activity of channel `i` (30_encoding.md R83). -/
theorem activeMask_getLsbD {n : Nat} (b : Bc n) (i : Fin n) (h : n ≤ 16) :
    (activeMask b).getLsbD i.val = b.ch[i].active := by
  have hi : i.val < 16 := by omega
  rw [activeMask, BitVec.getLsbD_setWidth, BitVec.getLsbD_ofBoolListLE]
  simp [hi]

/-- The answer has no bit at or above the number of channels. -/
theorem activeMask_high {n : Nat} (b : Bc n) (k : Nat) (h : n ≤ k) :
    (activeMask b).getLsbD k = false := by
  simp [activeMask, BitVec.getLsbD_setWidth, h]

end Sys2Proof.Machine
end

