-- ==== Sys2Proof/Laws/Engine.lean ====
section
/-! SUPPORT. The engine: the arms of ADV as equations, the planner's range, and the commands that keep
the engine invariants (42_tone_engine.md R126 to R134, 10_state.md R30). -/

namespace Sys2Proof.Machine

variable {n : Nat}

/-! ### The arms of ADV (R134) -/

/-- Arm A. -/
theorem execAdv_idle (s : State.Of n) (h : s.eng.isTransmitting = false) :
    execAdv s = .next (respond .ok TickOutcome.idle.code s) := by
  rw [execAdv]; exact if_pos h

/-- Arm B. -/
theorem execAdv_pause (s : State.Of n) (h : s.eng.isTransmitting = true)
    (hn : s.eng.tickCounter.toInt + 1 < 0) :
    execAdv s = .next (respond .ok TickOutcome.inProgress.code
      (setPosition s.eng.symbolIndex (s.eng.tickCounter.toInt + 1) s)) := by
  rw [execAdv]; exact (if_neg (by simp [h])).trans (if_pos hn)

/-- Arm C. -/
theorem execAdv_inside (s : State.Of n) (h : s.eng.isTransmitting = true)
    (h0 : 0 ≤ s.eng.tickCounter.toInt + 1)
    (h1 : s.eng.tickCounter.toInt + 1 < s.eng.cfg.symbolTicks.toNat) :
    execAdv s = .next (respond .ok TickOutcome.inProgress.code
      (command (plan s.eng.cfg (symbolAt s.freeCount s.eng s.eng.symbolIndex.val)
        (s.eng.tickCounter.toInt + 1))
      (setPosition s.eng.symbolIndex (s.eng.tickCounter.toInt + 1) s))) := by
  rw [execAdv]
  exact (if_neg (by simp [h])).trans ((if_neg (by omega)).trans (if_pos h1))

/-- The boundary: arms D, E and F. -/
theorem execAdv_boundary (s : State.Of n) (h : s.eng.isTransmitting = true)
    (h0 : 0 ≤ s.eng.tickCounter.toInt + 1)
    (h1 : (s.eng.cfg.symbolTicks.toNat : Int) ≤ s.eng.tickCounter.toInt + 1) :
    execAdv s = .next (advBoundary s) := by
  rw [execAdv]
  exact (if_neg (by simp [h])).trans ((if_neg (by omega)).trans (if_neg (by omega)))

/-- Arm D. -/
theorem advBoundary_complete (s : State.Of n)
    (h : s.eng.symbolIndex.val + 1 = nsym s.eng.cfg.alphabet) :
    advBoundary s = respond .ok TickOutcome.messageComplete.code (clearTx (command 0 s)) := by
  rw [advBoundary]; exact if_pos h

/-- Arm E. -/
theorem advBoundary_pause (s : State.Of n)
    (h : s.eng.symbolIndex.val + 1 ≠ nsym s.eng.cfg.alphabet)
    (hp : s.eng.cfg.alphabet = .chirp ∧ s.eng.cfg.pauseTicks.toNat > 0) :
    advBoundary s = respond .ok TickOutcome.symbolBoundary.code
      (setPosition (bump s.freeCount 0 s.eng.symbolIndex) (-(s.eng.cfg.pauseTicks.toNat : Int))
        (command 0 s)) := by
  rw [advBoundary]; exact (if_neg h).trans (if_pos hp)

/-- Arm F. -/
theorem advBoundary_next (s : State.Of n)
    (h : s.eng.symbolIndex.val + 1 ≠ nsym s.eng.cfg.alphabet)
    (hp : ¬ (s.eng.cfg.alphabet = .chirp ∧ s.eng.cfg.pauseTicks.toNat > 0)) :
    advBoundary s = respond .ok TickOutcome.symbolBoundary.code
      (command
        (plan s.eng.cfg (symbolAt s.freeCount s.eng (bump s.freeCount 0 s.eng.symbolIndex).val) 0)
        (setPosition (bump s.freeCount 0 s.eng.symbolIndex) 0 s)) := by
  rw [advBoundary]; exact (if_neg h).trans (if_neg hp)

/-! ### The configuration and the planner -/

/-- The slope as a number: the ceiling of bandwidth over ticks (41_symbol_codec.md R127). -/
theorem slopeOf_toNat (l h : Freq) (t : Ticks) (ht : 1 ≤ t.toNat) :
    (slopeOf l h t).toNat = (h.toNat - l.toNat + t.toNat - 1) / t.toNat := by
  rw [slopeOf, BitVec.toNat_ofNat, ceilDiv]
  apply Nat.mod_eq_of_lt
  have := h.isLt
  rw [Nat.div_lt_iff_lt_mul (by omega)]
  omega

/-- `WF_ENG` as a proposition (42_tone_engine.md R131). -/
theorem wfEng_iff (c : EngCfg) : c.wfEng = true ↔
    1 ≤ c.symbolTicks.toNat ∧ c.lowFreq.toNat ≤ c.highFreq.toNat ∧
    (c.alphabet = .chirp →
      c.lowFreq.toNat + c.freqSlope.toNat * (c.symbolTicks.toNat - 1) ≤ 65535 ∧
      c.freqSlope.toNat * (c.symbolTicks.toNat - 1) ≤ c.highFreq.toNat) := by
  simp only [EngCfg.wfEng, Bool.and_eq_true, Bool.or_eq_true, decide_eq_true_eq, bne_iff_ne, ne_eq]
  tauto

/-- Under `WF_ENG` the planner stays in the 16-bit range (41_symbol_codec.md R126, R131). -/
theorem plan_range (c : EngCfg) (sym : Symbol) (t : Int) (h : c.wfEng = true) (h0 : 0 ≤ t)
    (h1 : t < c.symbolTicks.toNat) (hs : c.alphabet = .binary → sym = .low ∨ sym = .high) :
    0 ≤ plan c sym t ∧ plan c sym t ≤ 65535 := by
  obtain ⟨hT, hle, hch⟩ := (wfEng_iff c).mp h
  have hl := c.lowFreq.isLt
  have hh := c.highFreq.isLt
  have hmul : (c.freqSlope.toNat : Int) * t ≤ c.freqSlope.toNat * ((c.symbolTicks.toNat - 1 : Nat) : Int) :=
    mul_le_mul_of_nonneg_left (by omega) (by omega)
  have hnn : 0 ≤ (c.freqSlope.toNat : Int) * t := mul_nonneg (by omega) h0
  have hc : sym = .up ∨ sym = .down → c.alphabet = .chirp := by
    intro h
    cases ha : c.alphabet with
    | chirp => rfl
    | binary => rcases hs ha with rfl | rfl <;> simp at h
  cases sym with
  | low => simp only [plan]; omega
  | high => simp only [plan]; omega
  | up =>
    have := (hch (hc (by simp))).1
    simp only [plan]
    constructor
    · omega
    · zify at this; omega
  | down =>
    have := (hch (hc (by simp))).2
    simp only [plan]
    constructor
    · zify at this; omega
    · omega

/-- A plan has 4 to 8 symbols (41_symbol_codec.md R125). -/
theorem nsym_le (a) : nsym a ≤ 8 ∧ 4 ≤ nsym a := by cases a <;> simp [nsym]

/-- The Binary alphabet has no ramps (30_encoding.md R88). -/
theorem encodeBinary_flat (b : Byte) (k : Fin 8) : (encodeBinary b)[k] = .low ∨ (encodeBinary b)[k] = .high := by
  simp [encodeBinary]

/-- An idle engine with its transmission state cleared satisfies the invariants. -/
theorem EngineOk.ofClear (e : Eng) (h0 : e.existsBit = false → e.cfg = EngCfg.zero) (h1 : e.existsBit = true → e.cfg.wfEng = true)
   (h2 : e.existsBit = true → e.cfg.freqSlope = slopeOf e.cfg.lowFreq e.cfg.highFreq e.cfg.symbolTicks)
   (ht : e.isTransmitting = false) (hf : e.currentFreq = 0) (hi : e.symbolIndex = 0) (hc : e.tickCounter = 0) (hs : e.symbols = Vector.replicate 8 .low) : EngineOk e :=
  ⟨h0, h1, h2, fun _ => hf, by simp [ht], by simp [ht], by simp [ht], by simp [ht], fun _ => ⟨hi, hc, hs⟩, by simp [ht]⟩

/-- ADV keeps the engine invariants (10_state.md R30). -/
theorem execAdv_ok (s t : State.Of n) (he : EngineOk s.eng) (h : execAdv s = .next t) : EngineOk t.eng := by
  simp only [execAdv] at h
  have hpt := s.eng.cfg.pauseTicks.isLt
  have hst := s.eng.cfg.symbolTicks.isLt
  split at h
  · cases h; exact he
  · rename_i htx
    have htx : s.eng.isTransmitting = true := by simpa using htx
    have hlive := he.live htx
    have hwf := he.wellFormed hlive
    have hpos := he.position htx
    have hn := nsym_le s.eng.cfg.alphabet
    split at h
    · rename_i hneg
      cases h
      have ht := tickCounter_toInt (s.eng.tickCounter.toInt + 1) (by omega) (by omega)
      have hp := he.pausing htx (by omega)
      refine ⟨he.inert, he.wellFormed, he.slope, by simp [htx], fun _ => hlive, ?_, ?_, ?_, by simp [htx], fun _ => he.binaryFlat htx⟩
      · intro _; simp [ht]; omega
      · intro _ _; exact hp
      · intro _ h0; simp [ht] at h0; omega
    · rename_i hge
      split at h
      · rename_i hlt
        cases h
        have ht := tickCounter_toInt (s.eng.tickCounter.toInt + 1) (by omega) (by omega)
        have hr := plan_range s.eng.cfg s.eng.symbols[s.eng.symbolIndex.val] _ hwf (by omega) hlt
          (fun ha => he.binaryFlat htx ha ⟨s.eng.symbolIndex.val, by omega⟩)
        rw [symbolAt_of_lt _ _ _ (by omega : s.eng.symbolIndex.val < 8)]
        refine ⟨?_, ?_, ?_, ?_, ?_, ?_, ?_, ?_, ?_, ?_⟩ <;> simp [htx, hlive, hwf, ht, command_eng, he.slope hlive]
        · omega
        · omega
        · intro _ _
          have := narrowFreq_toNat s.freeCount 0 _ hr.1 hr.2
          simpa using this
        · intro ha k; simpa using he.binaryFlat htx ha k
      · rename_i hnlt
        cases h
        unfold advBoundary
        dsimp only
        split
        · apply EngineOk.ofClear <;> simp [hlive, hwf, he.slope hlive]
        · rename_i hne
          have hb := bump_val s.freeCount 0 s.eng.symbolIndex (by omega)
          split
          · rename_i hch
            have ht := tickCounter_toInt (-(s.eng.cfg.pauseTicks.toNat : Int)) (by omega) (by omega)
            refine ⟨?_, ?_, ?_, ?_, ?_, ?_, ?_, ?_, ?_, ?_⟩ <;> simp [htx, hlive, hwf, ht, command_eng, he.slope hlive, hb, hch.1]
            · simp [hch.1] at hne hpos; omega
            · omega
          · rename_i hch
            rw [symbolAt_of_lt _ _ _ (by omega : (bump s.freeCount 0 s.eng.symbolIndex).val < 8)]
            refine ⟨?_, ?_, ?_, ?_, ?_, ?_, ?_, ?_, ?_, ?_⟩ <;> simp [htx, hlive, hwf, command_eng, he.slope hlive, hb]
            · have := (wfEng_iff _).mp hwf; omega
            · intro _; rw [plan_zero]
            · intro ha k; simpa using he.binaryFlat htx ha k

/-- XMIT keeps the engine invariants (10_state.md R30). -/
theorem execXmit_ok (b) (s t : State.Of n) (he : EngineOk s.eng) (h : execXmit b s = .next t) : EngineOk t.eng := by
  simp only [execXmit] at h
  split at h
  · cases h; exact he
  · rename_i hl
    have hlive : s.eng.existsBit = true := by simpa using hl
    have hwf := he.wellFormed hlive
    have hT := (wfEng_iff _).mp hwf
    split at h
    · cases h; exact he
    · cases h
      refine ⟨?_, ?_, ?_, ?_, ?_, ?_, ?_, ?_, ?_, ?_⟩ <;> simp [hlive, hwf, he.slope hlive]
      · cases s.eng.cfg.alphabet <;> simp [nsym] <;> omega
      · rw [plan_zero]
      · intro ha k
        rw [ha]
        exact encodeBinary_flat b k

end Sys2Proof.Machine
end

