-- ==== Sys2Proof/Laws/PerInstr.lean ====
section
/-! SUPPORT. The per-command family `EncodedFields`: the fields of a command's word are the row's `OP`
value and the command's operands (30_encoding.md R81, R86), one lemma for each constructor. -/

namespace Sys2Proof.Laws.EncodedFields

/-- The encoder puts the opcode and the operands in their fields, and the row is found again. -/
def Statement (i : Instr) : Prop :=
  opField (encode i) = i.op.code ∧ idxField (encode i) = i.idxOperand ∧
  dataField (encode i) = i.dataOperand ∧ Op.ofCode (opField (encode i)) = some i.op

/-- The one proof all constructors share. -/
theorem of_instr (i : Instr) : Statement i :=
  ⟨opField_encode i, idxField_encode i, dataField_encode i, by rw [opField_encode, ofCode_code]⟩

theorem pset (idx : Byte) (value : Half) : Statement (.pset idx value) := of_instr _

theorem pget (idx : Byte) : Statement (.pget idx) := of_instr _

theorem create : Statement .create := of_instr _

theorem xmit (byte : Byte) : Statement (.xmit byte) := of_instr _

theorem adv : Statement .adv := of_instr _

theorem qtx : Statement .qtx := of_instr _

theorem stop : Statement .stop := of_instr _

theorem destroy : Statement .destroy := of_instr _

theorem bmsg (byte : Byte) : Statement (.bmsg byte) := of_instr _

theorem breq : Statement .breq := of_instr _

theorem btick : Statement .btick := of_instr _

theorem ireq : Statement .ireq := of_instr _

theorem itick : Statement .itick := of_instr _

end Sys2Proof.Laws.EncodedFields
end

