-- ==== Sys2Proof/Laws/Step.lean ====
section
/-! SUPPORT. What a step, an accepted word and a run can do, said once, and how the TFMS with the values of
00_scope.md R7 stands to the one with any parameters. -/

namespace Sys2Proof.Machine

/-! ### The parameters (R7) -/

/-- The types of the words and registers have the widths and counts of R7. -/
theorem params_widths :
    Word = BitVec Config.params.cmdW ∧ Freq = BitVec Config.params.freqW ∧
    Ticks = BitVec Config.params.tickW ∧ State = State.Of Config.params.nch ∧
    Config.nparam = Config.params.nparam := ⟨rfl, rfl, rfl, rfl, rfl⟩

/-- The values of R7 are a record a model may take. -/
theorem params_wf : Config.params.wf = true := by decide

/-- A record a model may take differs from R7's values in `NCH` alone. -/
theorem wf_iff (p : Config.Params) :
    p.wf = true ↔ p = { Config.params with nch := p.nch } ∧ 1 ≤ p.nch ∧ p.nch ≤ 16 := by
  simp only [Config.Params.wf, Bool.and_eq_true, decide_eq_true_eq, and_assoc]

/-- `exec` is the execution with the values of R7. -/
theorem execFor_params : execFor Config.params = exec := by
  funext i s
  cases i <;> rfl

/-- `step` is the step with the values of R7. -/
theorem stepFor_params : stepFor Config.params = step := by
  funext s
  rw [stepFor, execFor_params]
  rfl

/-! ### One accepted word -/

/-- A word that decodes is executed. -/
theorem acceptWith_ok {p : Config.Params} (run : Execution p) {w : Word} {i : Instr}
    (s : State.Of p.nch) (h : decodeFor p w = .ok i) : acceptWith p run w s = run i s := by
  rw [acceptWith, h]

/-- A word that is rejected is answered ILLEGAL. -/
theorem acceptWith_error {p : Config.Params} (run : Execution p) {w : Word} {e : Illegal}
    (s : State.Of p.nch) (h : decodeFor p w = .error e) :
    acceptWith p run w s = .next (answerError .illegal s) := by
  rw [acceptWith, h]

theorem acceptWord_ok {w : Word} {i : Instr} (s : State) (h : decode w = .ok i) :
    acceptWord w s = exec i s :=
  acceptWith_ok (p := Config.params) exec s h

theorem acceptWord_error {w : Word} {e : Illegal} (s : State) (h : decode w = .error e) :
    acceptWord w s = .next (answerError .illegal s) :=
  acceptWith_error (p := Config.params) exec s h

/-! ### One step, by the next port input -/

/-- With nothing offered a step changes nothing. -/
theorem stepWith_still {p : Config.Params} (run : Execution p) (s : State.Of p.nch)
    (h : s.port.input = []) : stepWith p run s = .next s := by
  rw [stepWith, h]

/-- A step takes the next input off the port and acts on it. -/
theorem stepWith_input {p : Config.Params} (run : Execution p) (s : State.Of p.nch) {x : PortInput}
    {rest : List PortInput} (h : s.port.input = x :: rest) :
    stepWith p run s = takeInputWith p run x (popInput rest s) := by
  rw [stepWith, h]

theorem step_command (s : State) {w : Word} {rest : List PortInput}
    (h : s.port.input = .command w :: rest) : step s = acceptWord w (popInput rest s) :=
  stepWith_input (p := Config.params) exec s h

theorem step_reset (s : State) {rest : List PortInput} (h : s.port.input = .reset :: rest) :
    step s = .next (resetUnits (popInput rest s)) :=
  stepWith_input (p := Config.params) exec s h

theorem step_resetDuring (s : State) {w : Word} {rest : List PortInput}
    (h : s.port.input = .resetDuring w :: rest) :
    step s = .next (abandon (popInput rest s) (acceptWord w (popInput rest s))) :=
  stepWith_input (p := Config.params) exec s h

/-! ### Runs -/

/-- A run of no word stays where it is. -/
@[simp] theorem runWords_nil (s : State) : runWords [] s = .next s := rfl

/-- A run whose first word runs goes on from where that word leaves. -/
theorem runWords_cons {w : Word} {s t : State} (ws : List Word) (h : acceptWord w s = .next t) :
    runWords (w :: ws) s = runWords ws t := by
  have h' : acceptWith Config.params exec w s = .next t := h
  rw [runWords, runWordsWith, h']
  rfl

/-- A run of two parts is the second part's run from where the first leaves. -/
theorem runWords_append {ws : List Word} {s t : State} (ws' : List Word)
    (h : runWords ws s = .next t) : runWords (ws ++ ws') s = runWords ws' t := by
  induction ws generalizing s with
  | nil => cases h; rfl
  | cons w ws ih =>
    cases ha : acceptWord w s with
    | next u =>
      rw [runWords_cons ws ha] at h
      rw [List.cons_append, runWords_cons _ ha]
      exact ih h
    | fault r => exact nomatch r
    | refused r =>
      have ha' : acceptWith Config.params exec w s = .refused r := ha
      rw [runWords, runWordsWith, ha'] at h
      cases h

end Sys2Proof.Machine
end

