-- ==== Sys2Proof/Tests/Slice0.lean ====
section
/-! SUPPORT. Small tests, their expected values from the vectors of 95_test_vectors.md (V1 to V7, P1 to P8),
and the witnesses of the hypotheses of the obligations. -/

namespace Sys2Proof.Tests

open Sys2Proof.Machine

/-! ### Well-formedness refuses each ill-formed term (30_encoding.md R89 (c), (d)) -/

theorem test_wf_pset_index : ¬ (Instr.pset 12 0).WellFormed := by decide
theorem test_wf_pset_alphabet : ¬ (Instr.pset 4 2).WellFormed := by decide
theorem test_wf_pset_mask : ¬ (Instr.pset 10 0x10).WellFormed := by decide
theorem test_wf_pget_index : ¬ (Instr.pget 12).WellFormed := by decide
theorem test_wf_legal_neighbours :
    (Instr.pset 4 1).WellFormed ∧ (Instr.pset 10 0xF).WellFormed ∧ (Instr.pset 0 0xFFFF).WellFormed ∧
    (Instr.pget 11).WellFormed := by decide

/-! ### Decoding, words written out from the formats of R81 -/

theorem test_decode_pset :
    decode (0b00000001#8 ++ 0b00001010#8 ++ 0b0000000000001111#16 : Word) = .ok (.pset 10 15) := by
  decide
theorem test_decode_pget :
    decode (0b00000010#8 ++ 0b00001011#8 ++ 0b0000000000000000#16 : Word) = .ok (.pget 11) := by decide
theorem test_decode_create :
    decode (0b00010000#8 ++ 0b00000000#8 ++ 0b0000000000000000#16 : Word) = .ok .create := by decide
theorem test_decode_xmit :
    decode (0b00010001#8 ++ 0b00000000#8 ++ 0b0000000001100011#16 : Word) = .ok (.xmit 0x63) := by decide
theorem test_decode_adv :
    decode (0b00010010#8 ++ 0b00000000#8 ++ 0b0000000000000000#16 : Word) = .ok .adv := by decide
theorem test_decode_qtx :
    decode (0b00010011#8 ++ 0b00000000#8 ++ 0b0000000000000000#16 : Word) = .ok .qtx := by decide
theorem test_decode_stop :
    decode (0b00010100#8 ++ 0b00000000#8 ++ 0b0000000000000000#16 : Word) = .ok .stop := by decide
theorem test_decode_destroy :
    decode (0b00010101#8 ++ 0b00000000#8 ++ 0b0000000000000000#16 : Word) = .ok .destroy := by decide
theorem test_decode_bmsg :
    decode (0b00100000#8 ++ 0b00000000#8 ++ 0b0000000010100101#16 : Word) = .ok (.bmsg 0xA5) := by decide
theorem test_decode_breq :
    decode (0b00100001#8 ++ 0b00000000#8 ++ 0b0000000000000000#16 : Word) = .ok .breq := by decide
theorem test_decode_btick :
    decode (0b00100010#8 ++ 0b00000000#8 ++ 0b0000000000000000#16 : Word) = .ok .btick := by decide
theorem test_decode_ireq :
    decode (0b00110000#8 ++ 0b00000000#8 ++ 0b0000000000000000#16 : Word) = .ok .ireq := by decide
theorem test_decode_itick :
    decode (0b00110001#8 ++ 0b00000000#8 ++ 0b0000000000000000#16 : Word) = .ok .itick := by decide

/-- The illegal words of V7, by R89 item. -/
theorem test_decode_illegal_opcode :
    [0x00000000, 0xFFFFFFFF, 0x03000000, 0x16000000, 0x23000000, 0x32000000].map decode =
      List.replicate 6 (.error .opcodeUnassigned) := by decide
theorem test_decode_illegal_fields :
    [0x12000001, 0x11000100, 0x02000001].map decode = List.replicate 3 (.error .dataNotZero) ∧
    [0x12010000, 0x11010001].map decode = List.replicate 2 (.error .idxNotZero) := by decide
theorem test_decode_illegal_parameters :
    [0x010C0000, 0x020C0000].map decode = List.replicate 2 (.error .paramIndexReserved) ∧
    [0x01040002, 0x010A0010].map decode = List.replicate 2 (.error .paramValueIllegal) := by decide

/-- The words of the programs P1, P3, P5 and P7. -/
theorem test_encode_words :
    [Instr.pset 0 9750, .pset 1 10250, .xmit 0x63, .pset 5 1000, .bmsg 0x80, .pset 10 5].map encode =
      [0x01002616, 0x0101280A, 0x11000063, 0x010503E8, 0x20000080, 0x010A0005] := by decide

/-! ### States the tests run on -/

/-- The configuration of P1. -/
def binaryCfg : EngCfg :=
  { lowFreq := 9750, highFreq := 10250, symbolTicks := 4, pauseTicks := 0, alphabet := .binary,
    freqSlope := 125 }

/-- The configuration of P3. -/
def chirpCfg : EngCfg :=
  { lowFreq := 1000, highFreq := 1100, symbolTicks := 4, pauseTicks := 2, alphabet := .chirp,
    freqSlope := 25 }

/-- `0xC6` under Binary (V2). -/
def c6Binary : Vector Symbol 8 := #v[.high, .high, .low, .low, .low, .high, .high, .low]

/-- `0x63` under Chirp (V2). -/
def b63Chirp : Vector Symbol 8 := #v[.up, .down, .low, .high, .low, .low, .low, .low]

/-- The reset state with an engine. -/
def withEng (e : Eng) : State := { State.reset with eng := e }

/-- An idle engine. -/
def idleEng (c : EngCfg) : Eng := { Eng.reset with existsBit := true, cfg := c }

/-- A transmitting engine. -/
def txEng (c : EngCfg) (symbols : Vector Symbol 8) (k : Fin 9) (t : Int) (f : Freq) : Eng :=
  { existsBit := true, cfg := c, symbols := symbols, symbolIndex := k,
    tickCounter := BitVec.ofInt 17 t, currentFreq := f, isTransmitting := true }

/-- The reset state with the given parameters. -/
def withParams (P : Vector Half 12) : State := { State.reset with P := P }

/-- The parameters of V5 number 4. -/
def bcParamRegs : Vector Half 12 := #v[0, 0, 0, 0, 0, 1000, 3, 3, 2, 0, 0, 0]

/-- The parameters of P7. -/
def idParamRegs : Vector Half 12 := #v[0, 0, 0, 0, 0, 0, 0, 0, 0, 4000, 5, 3]

/-- A broadcaster whose four channels are the one given. -/
def withBc (P : Vector Half 12) (message : Byte) (req : Bool) (c : Channel) : State :=
  { withParams P with bc := { message := message, req := req, ch := Vector.replicate 4 c } }

/-- The channel after the dispatch of V5 number 4: message `0x40`, bit 7 clear, down from 1005. -/
def rampDown (f : Freq) : Channel :=
  { message := 0x40, bitCursor := 0, inPause := false, pauseCount := 0, startFreq := 1005,
    endFreq := 996, stepFreq := -3, currentFreq := f, active := true }

/-- The channel in the pause after bit 7. -/
def pausedAt (n : Nat) : Channel :=
  { rampDown 0 with bitCursor := 1, inPause := true, pauseCount := BitVec.ofNat 17 n }

/-- The beacon in the hold of P7. -/
def holding (count : Ticks) : State :=
  { withParams idParamRegs with
    beacon := { req := true, idActive := true, idCounter := count, heldMask := 5 } }

/-- What a command that runs answers and emits, from a state with empty ports. -/
def outputs (o : Host.Outcome State Fault Refusal) : Option (List Word × List ActEvent) :=
  match o with
  | .next t => some (t.port.responses, t.port.events)
  | .fault _ => none
  | .refused _ => none

/-- The state a command that runs leaves. -/
def after (o : Host.Outcome State Fault Refusal) : State :=
  match o with
  | .next t => t
  | .fault _ => State.reset
  | .refused _ => State.reset

/-- The same event on each channel. -/
def onAll (f : Freq) : List ActEvent := [⟨.bc, 0, f⟩, ⟨.bc, 1, f⟩, ⟨.bc, 2, f⟩, ⟨.bc, 3, f⟩]

/-! ### One step of each command -/

/-- V1 number 2. -/
theorem test_pset : (after (exec (.pset 1 10250) State.reset)).P =
    #v[0, 10250, 0, 0, 0, 0, 0, 0, 0, 0, 0, 0] := by decide
/-- V1 number 8. -/
theorem test_pset_illegal : outputs (exec (.pset 10 0x10) State.reset) = some ([0x30000000], []) := by
  decide
/-- V1 number 3. -/
theorem test_pget : outputs (exec (.pget 7) (withParams bcParamRegs)) = some ([0x00000003], []) := by
  decide
/-- V1 number 12. -/
theorem test_pget_illegal : outputs (exec (.pget 12) State.reset) = some ([0x30000000], []) := by
  decide
/-- V4 number 6. -/
theorem test_create :
    (after (exec .create (withParams #v[9750, 10250, 4, 0, 0, 0, 0, 0, 0, 0, 0, 0]))).eng =
      idleEng binaryCfg := by decide
/-- 93_implementation_defined.md U2: `symbolTicks` is 0 after reset. -/
theorem test_create_refused : exec .create State.reset = .refused .createOutsideWfEng := rfl
/-- V4 number 7. -/
theorem test_xmit :
    outputs (exec (.xmit 0xC6) (withEng (idleEng binaryCfg))) = some ([0], [⟨.eng, 0, 10250⟩]) ∧
    (after (exec (.xmit 0xC6) (withEng (idleEng binaryCfg)))).eng =
      txEng binaryCfg c6Binary 0 0 10250 := by decide
/-- V4 numbers 1 and 8. -/
theorem test_xmit_errors :
    outputs (exec (.xmit 1) State.reset) = some ([0x20000000], []) ∧
    outputs (exec (.xmit 1) (withEng (txEng binaryCfg c6Binary 0 0 10250))) =
      some ([0x10000000], []) := by decide
/-- P3, ADV 4: the end of an UP symbol, into the pause. -/
theorem test_adv_pause :
    outputs (exec .adv (withEng (txEng chirpCfg b63Chirp 0 3 1075))) =
      some ([2], [⟨.eng, 0, 0⟩]) ∧
    (after (exec .adv (withEng (txEng chirpCfg b63Chirp 0 3 1075)))).eng =
      txEng chirpCfg b63Chirp 1 (-2) 0 := by decide
/-- P3, ADV 6: the end of the pause, into the DOWN symbol. -/
theorem test_adv_resume :
    outputs (exec .adv (withEng (txEng chirpCfg b63Chirp 1 (-1) 0))) =
      some ([1], [⟨.eng, 0, 1100⟩]) := by decide
/-- V4 numbers 14 and 3. -/
theorem test_qtx :
    outputs (exec .qtx (withEng (txEng binaryCfg c6Binary 0 0 10250))) = some ([1], []) ∧
    outputs (exec .qtx State.reset) = some ([0], []) := by decide
/-- V4 number 13. -/
theorem test_stop :
    outputs (exec .stop (withEng (txEng binaryCfg c6Binary 0 1 10250))) =
      some ([1], [⟨.eng, 0, 0⟩]) ∧
    (after (exec .stop (withEng (txEng binaryCfg c6Binary 0 1 10250)))).eng =
      idleEng binaryCfg := by decide
/-- V4 number 15. -/
theorem test_destroy :
    outputs (exec .destroy (withEng (txEng binaryCfg c6Binary 2 0 9750))) =
      some ([0], [⟨.eng, 0, 0⟩]) ∧
    (after (exec .destroy (withEng (txEng binaryCfg c6Binary 2 0 9750)))).eng = Eng.reset := by decide
/-- V5 number 2. -/
theorem test_bmsg : (after (exec (.bmsg 0x12) State.reset)).bc = { Bc.reset 4 with message := 0x12 } := by
  decide
/-- V5 number 3. -/
theorem test_breq : (after (exec .breq State.reset)).bc = { Bc.reset 4 with req := true } := by decide
/-- V5 number 4. -/
theorem test_btick_dispatch :
    outputs (exec .btick (withBc bcParamRegs 0x40 true Channel.zero)) = some ([0xF], onAll 1005) ∧
    (after (exec .btick (withBc bcParamRegs 0x40 true Channel.zero))).bc =
      (withBc bcParamRegs 0x40 false (rampDown 1005)).bc := by decide
/-- V5 numbers 6 and 8. -/
theorem test_btick_pause :
    outputs (exec .btick (withBc bcParamRegs 0x40 false (rampDown 996))) = some ([0xF], onAll 0) ∧
    outputs (exec .btick (withBc bcParamRegs 0x40 false (pausedAt 2))) = some ([0xF], onAll 996) := by
  decide
/-- P7. -/
theorem test_ireq : (after (exec .ireq State.reset)).beacon = { Beacon.reset 4 with req := true } := by
  decide
/-- V6 number 2. -/
theorem test_itick_start :
    outputs (exec .itick { withParams idParamRegs with beacon := { Beacon.reset 4 with req := true } }) =
      some ([1], [⟨.id, 0, 4000⟩, ⟨.id, 2, 4000⟩]) := by decide
/-- P7: the hold ends on the channels of the snapshot, and the request seen while active is dropped. -/
theorem test_itick_end :
    outputs (exec .itick (holding 2)) = some ([0], [⟨.id, 0, 0⟩, ⟨.id, 2, 0⟩]) ∧
    (after (exec .itick (holding 2))).beacon = Beacon.reset 4 := by decide

/-- S2: the last value of an UP symbol of twenty ticks. -/
theorem test_plan :
    plan ⟨12750, 13250, 20, 0, .chirp, slopeOf 12750 13250 20⟩ .up 19 = 13225 := by decide
/-- V2, rows `0xC6` and `0x1B`. -/
theorem test_codec :
    encodeSymbols 0xC6 .binary = c6Binary ∧
    encodeSymbols 0x1B .chirp = #v[.low, .up, .down, .high, .low, .low, .low, .low] := by decide
/-- A step through the port: P7's first beacon request, and a word of V7. -/
theorem test_step :
    step (State.reset.withFetchWord 32 0x30000000) = exec .ireq State.reset ∧
    outputs (step (State.reset.withFetchWord 32 0x12000001)) = some ([0x30000000], []) := by
  exact ⟨rfl, rfl⟩

/-! ### Witnesses of the obligations' hypotheses

Each theorem gives a state and operands that meet the hypotheses of the obligation it is named after, for
each clause of it. -/

/-- A state with a port input before it. -/
def offered (p : PortInput) : State := pushInput p State.reset

theorem witness_DecodeOfEncode : (Instr.pset 10 15).WellFormed := by decide
theorem witness_EncodeOfDecode : decode 0x010A000F = .ok (.pset 10 15) := by decide
theorem witness_DecodeFollowsMatchMask :
    decode 0x020B0000 = .ok (.pget 11) ∧ (0x020B0000 : Word) &&& Op.pget.mask = Op.pget.matchBits := by
  decide
/-- A word of each item of R89, and a legal neighbour. -/
theorem witness_IllegalWordsAnsweredIllegal (w : Word) :
    (offered (.command w)).port.input = .command w :: [] ∧
    (∀ o : Op, (0x16000000 : Word).extractLsb' 24 8 ≠ o.code) ∧
    (0x12010000 : Word).extractLsb' 16 8 ≠ 0 ∧ (0x02000001 : Word).extractLsb' 0 16 ≠ 0 ∧
    ((0x11000100 : Word).extractLsb' 0 16).extractLsb' 8 8 ≠ 0 ∧
    12 ≤ ((0x010C0000 : Word).extractLsb' 16 8).toNat ∧
    1 < ((0x01040002 : Word).extractLsb' 0 16).toNat ∧
    2 ^ Config.nch ≤ ((0x010A0010 : Word).extractLsb' 0 16).toNat ∧
    decode 0x010A000F = .ok (.pset 10 15) := by
  refine ⟨rfl, fun o => ?_, ?_⟩
  · cases o <;> decide
  · decide
theorem witness_RejectionsNameTheirCause :
    decode 0x16000000 = .error .opcodeUnassigned ∧ decode 0x12010000 = .error .idxNotZero ∧
    decode 0x02000001 = .error .dataNotZero ∧ decode 0x11000100 = .error .dataNotZero ∧
    decode 0x010C0000 = .error .paramIndexReserved ∧
    decode 0x01040002 = .error .paramValueIllegal := by decide
theorem witness_StepRunsDecodedCommand :
    (offered (.command 0x31000000)).port.input = .command 0x31000000 :: [] ∧
    decode 0x31000000 = .ok .itick ∧ State.reset.port.input = [] := ⟨rfl, by decide, rfl⟩
theorem witness_ResetZeroesEveryField : (offered .reset).port.input = .reset :: [] := rfl
theorem witness_ResetAbandonsCommand :
    (offered (.resetDuring 0x21000000)).port.input = .resetDuring 0x21000000 :: [] ∧
    ∃ u, acceptWord 0x21000000 (popInput [] (offered (.resetDuring 0x21000000))) = .next u :=
  ⟨rfl, _, rfl⟩
theorem witness_OneResponsePerCommand : ∃ t, exec (.xmit 1) State.reset = .next t := ⟨_, rfl⟩
theorem witness_NonOkChangesNothing :
    ∃ t, exec (.xmit 1) State.reset = .next t ∧ Answers State.reset t .inert 0 := ⟨_, rfl, rfl, rfl⟩
/-- Each of the three cases. -/
theorem witness_OnlyTwoRefusals :
    (∃ t, exec .adv State.reset = .next t) ∧ State.reset.shadowCfg.wfEng = false ∧
    (withBc #v[0, 0, 0, 0, 0, 100, 100, 4, 0, 0, 0, 0] 0 true Channel.zero).bc.dispatches = true ∧
    (withBc #v[0, 0, 0, 0, 0, 100, 100, 4, 0, 0, 0, 0] 0 true Channel.zero).bcParams.inFreqRange =
      false := ⟨⟨_, rfl⟩, by decide, by decide, by decide⟩
/-- A command of each unit. -/
theorem witness_UnitsChangedByTheirOwnCommands :
    (∃ t, exec (.pset 0 1) State.reset = .next t) ∧ (∃ t, exec .adv State.reset = .next t) ∧
    (∃ t, exec .btick State.reset = .next t) ∧ ∃ t, exec .itick State.reset = .next t :=
  ⟨⟨_, rfl⟩, ⟨_, rfl⟩, ⟨_, rfl⟩, _, rfl⟩
theorem witness_EventsOnlyOnChange :
    (∃ t, exec .stop (withEng (txEng binaryCfg c6Binary 0 1 10250)) = .next t) ∧
    (∃ t, exec .btick (withBc bcParamRegs 0x40 true Channel.zero) = .next t) ∧
    ∃ t, exec .breq State.reset = .next t := ⟨⟨_, rfl⟩, ⟨_, rfl⟩, _, rfl⟩
/-- P8: the shadow `symbolTicks` is written while the engine transmits. -/
theorem witness_ShadowParametersDoNotReachEngine :
    ∃ t, exec .adv (writeParam 2 2 (withEng (txEng binaryCfg c6Binary 0 1 10250))) = .next t ∧
      t.eng = txEng binaryCfg c6Binary 0 2 10250 := ⟨_, rfl, by decide⟩
/-- P6: other bounds while the channels ramp. -/
theorem witness_RunningBroadcastIgnoresBounds :
    let s := withBc bcParamRegs 0x40 true (rampDown 1002)
    let s' := withBc #v[0, 0, 0, 0, 0, 7, 9, 11, 2, 0, 0, 0] 0x40 true (rampDown 1002)
    s.bc.dispatches = false ∧ s'.bc = s.bc ∧ s'.port = s.port ∧ s'.freeCount = s.freeCount ∧
    s'.pBcPause = s.pBcPause ∧ s'.bcParams ≠ s.bcParams := by decide
theorem witness_PgetReadsRegister :
    (11 : Byte).toNat < Config.nparam ∧ 12 ≤ (12 : Byte).toNat ∧
    (0x02000001 : Word).extractLsb' 24 8 = 0x02 ∧ (0x02000001 : Word).extractLsb' 0 16 ≠ 0 := by decide
/-- The configuration of the ramp of V3 that passes its bounds, and the reset parameters. -/
theorem witness_CreateLoadsConfiguration :
    (withParams #v[1000, 1009, 6, 0, 1, 0, 0, 0, 0, 0, 0, 0]).shadowCfg.wfEng = true ∧
    State.reset.shadowCfg.wfEng = false := by decide
theorem witness_XmitStartsTransmission :
    (withEng (idleEng chirpCfg)).eng.existsBit = true ∧
    (withEng (idleEng chirpCfg)).eng.isTransmitting = false := by decide
theorem witness_XmitOrderOfChecks :
    decode 0x11000100 = .error .dataNotZero ∧
    (0x11000100 : Word).extractLsb' 24 8 = 0x11 ∧ (0x11000100 : Word).extractLsb' 8 8 ≠ 0 ∧
    State.reset.eng.existsBit = false ∧ (txEng binaryCfg c6Binary 0 0 10250).existsBit = true ∧
    (txEng binaryCfg c6Binary 0 0 10250).isTransmitting = true := by decide
/-- The three clauses, the third at the last tick inside a symbol and at the end of a pause. -/
theorem witness_AdvAwayFromBoundary :
    State.reset.eng.isTransmitting = false ∧
    (txEng chirpCfg b63Chirp 1 (-2) 0).tickCounter.toInt + 1 < 0 ∧
    (txEng chirpCfg b63Chirp 1 (-1) 0).tickCounter.toInt + 1 = 0 ∧
    plan chirpCfg b63Chirp[1] 0 = 1100 ∧
    (txEng chirpCfg b63Chirp 0 2 1050).tickCounter.toInt + 1 < chirpCfg.symbolTicks.toNat ∧
    plan chirpCfg b63Chirp[0] 3 = 1075 := by decide
/-- The three clauses: the last symbol, a symbol before it with pauses, one without. -/
theorem witness_AdvAtBoundary :
    let s := txEng binaryCfg c6Binary 7 3 9750
    let s' := txEng chirpCfg b63Chirp 2 3 1000
    let s'' := txEng binaryCfg c6Binary 6 3 10250
    (s.isTransmitting = true ∧ (s.cfg.symbolTicks.toNat : Int) ≤ s.tickCounter.toInt + 1 ∧
      s.symbolIndex.val + 1 = nsym s.cfg.alphabet) ∧
    (s'.isTransmitting = true ∧ (s'.cfg.symbolTicks.toNat : Int) ≤ s'.tickCounter.toInt + 1 ∧
      s'.symbolIndex.val + 1 < nsym s'.cfg.alphabet ∧ s'.cfg.alphabet = .chirp ∧
      0 < s'.cfg.pauseTicks.toNat) ∧
    s''.isTransmitting = true ∧ (s''.cfg.symbolTicks.toNat : Int) ≤ s''.tickCounter.toInt + 1 ∧
    s''.symbolIndex.val + 1 < nsym s''.cfg.alphabet ∧ s''.cfg.alphabet ≠ .chirp := by decide

theorem engineOk_reset : EngineOk Eng.reset := by constructor <;> decide
theorem engineOk_idle : EngineOk (idleEng binaryCfg) := by constructor <;> decide
theorem engineOk_idleChirp : EngineOk (idleEng chirpCfg) := by constructor <;> decide
theorem engineOk_sounding (t : Fin 4) :
    EngineOk (txEng chirpCfg b63Chirp 0 t.val (BitVec.ofNat 16 (1000 + 25 * t.val))) := by
  fin_cases t <;> constructor <;> decide
theorem engineOk_lastTick : EngineOk (txEng binaryCfg c6Binary 7 3 9750) := by constructor <;> decide
theorem engineOk_nextSymbol : EngineOk (txEng binaryCfg c6Binary 6 3 10250) := by
  constructor <;> decide
theorem engineOk_pausing : EngineOk (txEng chirpCfg b63Chirp 1 (-2) 0) := by constructor <;> decide
theorem engineOk_pauseEnds : EngineOk (txEng chirpCfg b63Chirp 1 (-1) 0) := by constructor <;> decide

/-- Each row: inert, idle, inside a symbol, the three boundaries, inside a pause, its end. -/
theorem witness_AdvMovesPhase :
    Eng.reset.phase = .inert ∧ (idleEng binaryCfg).phase = .idle ∧
    (txEng chirpCfg b63Chirp 0 2 1050).phase = .sounding 0 2 ∧
    (txEng binaryCfg c6Binary 6 3 10250).phase = .sounding 6 3 ∧
    (txEng chirpCfg b63Chirp 0 3 1075).phase = .sounding 0 3 ∧
    (txEng binaryCfg c6Binary 7 3 9750).phase = .sounding 7 3 ∧
    (txEng chirpCfg b63Chirp 1 (-2) 0).phase = .pausing 1 (-2) ∧
    (txEng chirpCfg b63Chirp 1 (-1) 0).phase = .pausing 1 (-1) := by decide
/-- Each row: CREATE with the parameters of P1, and an inert, an idle and a transmitting engine. -/
theorem witness_ControlMovesPhase :
    (withParams #v[9750, 10250, 4, 0, 0, 0, 0, 0, 0, 0, 0, 0]).shadowCfg.wfEng = true ∧
    EngineOk Eng.reset ∧ EngineOk (idleEng binaryCfg) ∧
    EngineOk (txEng binaryCfg c6Binary 7 3 9750) :=
  ⟨by decide, engineOk_reset, engineOk_idle, engineOk_lastTick⟩
theorem witness_QtxReportsTransmitting :
    EngineOk Eng.reset ∧ Eng.reset.existsBit = false ∧
    (txEng chirpCfg b63Chirp 1 (-2) 0).isTransmitting = true ∧
    (txEng chirpCfg b63Chirp 1 (-2) 0).tickCounter.toInt < 0 :=
  ⟨engineOk_reset, rfl, rfl, by decide⟩
theorem witness_RepeatedCommandsChangeNothing :
    (Instr.pset 4 1).op ∈ [Op.pset, .breq, .ireq, .stop] ∧
    (∃ t u, exec (.pset 4 1) State.reset = .next t ∧ exec (.pset 4 1) t = .next u) ∧
    ∃ t u, exec .stop (withEng (txEng binaryCfg c6Binary 0 1 10250)) = .next t ∧
      exec .stop t = .next u := ⟨by decide, ⟨_, _, rfl, rfl⟩, _, _, rfl, rfl⟩
/-- Both alphabets. -/
theorem witness_TransmissionLength :
    (EngineOk (withEng (idleEng binaryCfg)).eng ∧ (idleEng binaryCfg).existsBit = true ∧
      (idleEng binaryCfg).isTransmitting = false ∧
      ∃ t, exec (.xmit 0xC6) (withEng (idleEng binaryCfg)) = .next t) ∧
    EngineOk (withEng (idleEng chirpCfg)).eng ∧ (idleEng chirpCfg).existsBit = true ∧
    (idleEng chirpCfg).isTransmitting = false ∧ chirpCfg.alphabet = .chirp ∧
    ∃ t, exec (.xmit 0x63) (withEng (idleEng chirpCfg)) = .next t :=
  ⟨⟨engineOk_idle, rfl, rfl, _, rfl⟩, engineOk_idleChirp, rfl, rfl, rfl, _, rfl⟩
theorem witness_CodecOrder : (3 : Fin 8).val < 4 ∧ 4 ≤ (4 : Fin 8).val := by decide
theorem witness_SlopeIsCeiling :
    1 ≤ (1 : Ticks).toNat ∧ (0 : Freq).toNat ≤ (65535 : Freq).toNat := by decide
theorem witness_PlannedFrequenciesInRange :
    chirpCfg.wfEng = true ∧ 3 < chirpCfg.symbolTicks.toNat ∧ chirpCfg.alphabet ≠ .binary ∧
    binaryCfg.wfEng = true := by decide

theorem channelOk_zero : ChannelOk Channel.zero :=
  ⟨fun _ => rfl, by decide, by decide, fun h => (by cases h), fun h => (by cases h), by decide,
    by decide⟩
/-- The ramp of V5, at each of its four steps. -/
theorem channelOk_ramp (m : Fin 4) : ChannelOk (rampDown (BitVec.ofNat 16 (1005 - 3 * m.val))) := by
  fin_cases m
  · exact ⟨by decide, by decide, by decide, fun _ _ => ⟨0, by decide⟩, fun _ => ⟨3, by decide⟩,
      by decide, by decide⟩
  · exact ⟨by decide, by decide, by decide, fun _ _ => ⟨1, by decide⟩, fun _ => ⟨3, by decide⟩,
      by decide, by decide⟩
  · exact ⟨by decide, by decide, by decide, fun _ _ => ⟨2, by decide⟩, fun _ => ⟨3, by decide⟩,
      by decide, by decide⟩
  · exact ⟨by decide, by decide, by decide, fun _ _ => ⟨3, by decide⟩, fun _ => ⟨3, by decide⟩,
      by decide, by decide⟩
theorem channelOk_lastBit : ChannelOk { rampDown 996 with bitCursor := 7 } := by
  refine ⟨by decide, by decide, fun _ _ => by decide, fun _ _ => ⟨3, by decide⟩,
    fun _ => ⟨3, by decide⟩, by decide, by decide⟩
theorem channelOk_paused (n : Fin 3) : ChannelOk (pausedAt n.val) := by
  fin_cases n <;>
    exact ⟨by decide, by decide, by decide, fun _ h => (by cases h), fun _ => ⟨3, by decide⟩,
      by decide, by decide⟩
theorem broadcasterOk_all (P : Vector Half 12) (message : Byte) (req : Bool) (c : Channel)
    (h : ChannelOk c) : BroadcasterOk (withBc P message req c).bc := by
  have e : ∀ i : Fin Config.nch, (withBc P message req c).bc.ch[i] = c := fun i => by
    simp [withBc]
  exact ⟨fun i j => (e i).trans (e j).symm, fun i => (e i).symm ▸ h⟩

theorem witness_BtickAnswersActiveMask :
    (withBc bcParamRegs 0x40 true Channel.zero).bc.dispatches = true ∧
    (withBc bcParamRegs 0x40 true Channel.zero).bcParams.inFreqRange = true := by decide
/-- Both sides of the condition: bottom below 0 with a dormant channel, and the bounds of V5. -/
theorem witness_BtickRefusedOutsideRange :
    exec .btick (withBc #v[0, 0, 0, 0, 0, 100, 100, 4, 0, 0, 0, 0] 0 true Channel.zero) =
      .refused .dispatchOutsideFreqRange ∧
    ∃ t, exec .btick (withBc bcParamRegs 0x40 true Channel.zero) = .next t := ⟨rfl, _, rfl⟩
theorem witness_BtickDispatchesDormantChannel :
    let s := withBc bcParamRegs 0x40 true Channel.zero
    (∃ t, exec .btick s = .next t) ∧ s.bc.req = true ∧ s.bc.ch[(3 : Fin 4)].active = false :=
  ⟨⟨_, rfl⟩, rfl, rfl⟩
/-- The last count that stays in the pause, and the first that leaves it. -/
theorem witness_BtickCountsPause :
    let s := withBc bcParamRegs 0x40 false (pausedAt 1)
    let s' := withBc bcParamRegs 0x40 false (pausedAt 2)
    (∃ t, exec .btick s = .next t) ∧ (∃ t, exec .btick s' = .next t) ∧ ChannelOk (pausedAt 1) ∧
    ChannelOk (pausedAt 2) ∧ (pausedAt 1).active = true ∧ (pausedAt 1).inPause = true ∧
    (pausedAt 1).pauseCount.toNat + 1 ≤ s.P[8].toNat ∧
    s'.P[8].toNat < (pausedAt 2).pauseCount.toNat + 1 :=
  ⟨⟨_, rfl⟩, ⟨_, rfl⟩, channelOk_paused 1, channelOk_paused 2, by decide, by decide, by decide,
    by decide⟩
/-- The step onto the end frequency, the step past it, and the step past it in the last bit. -/
theorem witness_BtickRampsChannel :
    (∃ t, exec .btick (withBc bcParamRegs 0x40 false (rampDown 999)) = .next t) ∧
    (∃ t, exec .btick (withBc bcParamRegs 0x40 false (rampDown 996)) = .next t) ∧
    (∃ t, exec .btick (withBc bcParamRegs 0x40 false { rampDown 996 with bitCursor := 7 }) =
      .next t) ∧
    ChannelOk (rampDown 999) ∧ ChannelOk (rampDown 996) ∧
    ChannelOk { rampDown 996 with bitCursor := 7 } :=
  ⟨⟨_, rfl⟩, ⟨_, rfl⟩, ⟨_, rfl⟩, channelOk_ramp 2, channelOk_ramp 3, channelOk_lastBit⟩
/-- A dormant channel with no request, and the hang of V5 with slope 0. -/
theorem witness_BtickLeavesChannel :
    (∃ t, exec .btick State.reset = .next t) ∧ State.reset.bc.req = false ∧
    (∃ t, exec .btick (withBc bcParamRegs 0 false
      { rampDown 1000 with startFreq := 1000, endFreq := 1000, stepFreq := 0 }) = .next t) :=
  ⟨⟨_, rfl⟩, rfl, _, rfl⟩
theorem witness_BtickClearsRequest :
    (∃ t, exec .btick (withBc bcParamRegs 0x40 true Channel.zero) = .next t) ∧
    ∃ t, exec .btick (withBc bcParamRegs 0x40 true (rampDown 1002)) = .next t := ⟨⟨_, rfl⟩, _, rfl⟩
theorem witness_OneRequestOneBroadcast :
    BroadcasterOk (withBc bcParamRegs 0x40 true Channel.zero).bc ∧
    BroadcasterOk (withBc bcParamRegs 0x40 true (rampDown 1002)).bc ∧
    (∃ t, exec .btick (withBc bcParamRegs 0x40 true Channel.zero) = .next t) ∧
    ∃ t, exec .btick (withBc bcParamRegs 0x40 true (rampDown 1002)) = .next t :=
  ⟨broadcasterOk_all _ _ _ _ channelOk_zero, broadcasterOk_all _ _ _ _ (channelOk_ramp 1),
    ⟨_, rfl⟩, _, rfl⟩
/-- The parameters of V5 number 4. -/
theorem witness_BroadcastLength :
    BroadcasterOk (withBc bcParamRegs 0x40 true Channel.zero).bc ∧
    (withBc bcParamRegs 0x40 true Channel.zero).bcParams.wfBc = true ∧
    ∀ i : Fin Config.nch, (withBc bcParamRegs 0x40 true Channel.zero).bc.ch[i].active = false :=
  ⟨broadcasterOk_all _ _ _ _ channelOk_zero, by decide, by decide⟩
/-- Each arm: start, dormant, the last holding tick, the tick that ends the hold. -/
theorem witness_ItickFollowsItsArms :
    (exec .ireq State.reset = .next (after (exec .ireq State.reset)) ∧
      (after (exec .ireq State.reset)).beacon.req = true) ∧
    State.reset.beacon.req = false ∧ State.reset.beacon.idActive = false ∧
    (holding 1).beacon.idActive = true ∧
    (holding 1).beacon.idCounter.toNat + 1 < (holding 1).P[11].toNat ∧
    (holding 2).P[11].toNat ≤ (holding 2).beacon.idCounter.toNat + 1 :=
  ⟨⟨rfl, rfl⟩, rfl, rfl, rfl, by decide, by decide⟩
theorem witness_BeaconHoldLength :
    (holding 0).beacon.idActive = true ∧ (holding 0).beacon.idCounter = 0 := ⟨rfl, rfl⟩

/-- A machine with a transmission, a broadcast and a hold under way, and its next command offered. -/
def busy (w : Word) : State :=
  { P := #v[1000, 1100, 4, 2, 1, 1000, 3, 3, 2, 4000, 5, 3],
    eng := txEng chirpCfg b63Chirp 1 (-2) 0,
    bc := (withBc bcParamRegs 0x40 true (rampDown 1002)).bc,
    beacon := (holding 1).beacon,
    port := { input := [.command w], responses := [], events := [] },
    freeCount := 0 }
theorem machineOk_busy (w : Word) : MachineOk (busy w) :=
  ⟨⟨by show (1 : Half).toNat ≤ 1; decide, by show (5 : Half).toNat < 16; decide⟩,
    engineOk_pausing, broadcasterOk_all bcParamRegs 0x40 true _ (channelOk_ramp 1),
    fun h => (by cases h)⟩
/-- A step of each unit. -/
theorem witness_StepKeepsInvariants :
    MachineOk (busy 0x12000000) ∧ (∃ t, step (busy 0x12000000) = .next t) ∧
    (∃ t, step (busy 0x22000000) = .next t) ∧ ∃ t, step (busy 0x31000000) = .next t :=
  ⟨machineOk_busy _, ⟨_, rfl⟩, ⟨_, rfl⟩, _, rfl⟩
theorem witness_CommandsKeepEngineInvariants :
    EngineOk (withEng (txEng chirpCfg b63Chirp 1 (-1) 0)).eng ∧
    ∃ t, exec .adv (withEng (txEng chirpCfg b63Chirp 1 (-1) 0)) = .next t :=
  ⟨engineOk_pauseEnds, _, rfl⟩
/-- A dispatch in range, with four channels. -/
theorem witness_LockstepForAnyChannelCount :
    let s := withBc bcParamRegs 0x40 true Channel.zero
    BroadcasterOk s.bc ∧ s.bc.dispatches = true ∧ s.bcParams.inFreqRange = true :=
  ⟨broadcasterOk_all _ _ _ _ channelOk_zero, by decide, by decide⟩

/-! ### Other numbers of channels (00_scope.md R7) -/

/-- R7's parameters with another number of channels. -/
def withChannels (n : Nat) : Config.Params := { Config.params with nch := n }

/-- A mask that four channels refuse (V1 number 8) and six take, at the boundary of each. -/
theorem test_mask_six_channels :
    decodeFor (withChannels 6) (encode (.pset 10 0x3F)) = .ok (.pset 10 0x3F) ∧
    decodeFor (withChannels 6) (encode (.pset 10 0x40)) = .error .paramValueIllegal ∧
    decode (encode (.pset 10 0x10)) = .error .paramValueIllegal := by decide
/-- Every 16-bit mask is legal with sixteen channels. -/
theorem test_mask_sixteen_channels :
    decodeFor (withChannels 16) 0x010AFFFF = .ok (.pset 10 0xFFFF) := by decide
theorem witness_DecodeOfEncodeForAnyParameters :
    (Instr.pset 10 0x3F).wfFor (withChannels 6) = true ∧
    decodeFor (withChannels 6) 0x010A003F = .ok (.pset 10 0x3F) := by decide
/-- Both branches, at the boundary. -/
theorem witness_PsetMaskForAnyParameters :
    (pushInput (.command (encode (.pset 10 0x3F))) (State.Of.reset 6)).port.input =
      .command (encode (.pset 10 0x3F)) :: [] ∧
    (0x3F : Half).toNat < 2 ^ (withChannels 6).nch ∧
    ¬ (0x40 : Half).toNat < 2 ^ (withChannels 6).nch := ⟨rfl, by decide, by decide⟩
/-- A dispatch on one and on sixteen channels, in range. -/
theorem witness_BtickForAnyParameters :
    (withChannels 1).wf = true ∧ (withChannels 16).wf = true ∧
    (let s : State.Of 16 := { State.Of.reset 16 with
      P := bcParamRegs, bc := { Bc.reset 16 with req := true } }
     s.bc.dispatches = true ∧ s.bcParams.inFreqRange = true) := by decide
/-- A step on six channels from the reset state, which satisfies the invariants. -/
theorem witness_StepKeepsInvariantsForAnyParameters :
    MachineOk (State.Of.reset 6) ∧
    ∃ t, stepFor (withChannels 6) (pushInput (.command 0x22000000) (State.Of.reset 6)) = .next t := by
  refine ⟨⟨⟨by decide, by decide⟩, engineOk_reset, ⟨by decide, fun i => ?_⟩, fun _ => ⟨rfl, rfl⟩⟩,
    _, rfl⟩
  have e : (State.Of.reset 6).bc.ch[i] = Channel.zero := by simp [State.Of.reset, Bc.reset]
  exact e ▸ channelOk_zero

end Sys2Proof.Tests
end

section
/-! PROOF. The reset state is zero in every row of the table of 10_state.md R38, and a reset step leads to
it whatever the state was (70_reset_and_hazards.md R230). -/

namespace Sys2Proof.Machine

variable {n : Nat}

/-! ### The reset value of each part of the state (R38) -/

theorem channelZero_zero : ChannelZero Channel.zero := ⟨rfl, rfl, rfl, rfl, rfl, rfl, rfl, rfl, rfl⟩

theorem cfgZero_zero : CfgZero EngCfg.zero := ⟨rfl, rfl, rfl, rfl, rfl, rfl⟩

theorem Eng.reset_symbols_get (k : Fin 8) : Eng.reset.symbols[k] = .low :=
  Vector.getElem_replicate k.isLt

theorem txClear_reset : TxClear Eng.reset := ⟨rfl, rfl, rfl, Eng.reset_symbols_get⟩

theorem Bc.reset_ch_get (i : Fin n) : (Bc.reset n).ch[i] = Channel.zero :=
  Vector.getElem_replicate i.isLt

theorem State.Of.reset_P_get (i : Fin Config.nparam) : (State.Of.reset n).P[i] = 0 :=
  Vector.getElem_replicate i.isLt

theorem channelZero_reset (i : Fin n) : ChannelZero (Bc.reset n).ch[i] :=
  (Bc.reset_ch_get i).symm ▸ channelZero_zero

/-! ### The whole state -/

theorem allFieldsZero_reset (n : Nat) : AllFieldsZero (State.Of.reset n) :=
  ⟨State.Of.reset_P_get, rfl, cfgZero_zero, txClear_reset, rfl, rfl, rfl, channelZero_reset,
    rfl, rfl, rfl, rfl⟩

/-- The table of R38 speaks of the tuple of R20 alone: the ports and the counter of free values, which
are the model's own, are no part of it (log entry 1). -/
theorem AllFieldsZero.of_keepsUnits {s t : State.Of n} (hs : AllFieldsZero s) (h : KeepsUnits s t) :
    AllFieldsZero t := by
  obtain ⟨hP, hEng, hBc, hBeacon⟩ := h
  simpa only [AllFieldsZero, hP.symm, hEng.symm, hBc.symm, hBeacon.symm] using hs

/-- `rst` puts the four units at their reset values from every state (R230). -/
theorem keepsUnits_reset_resetUnits (s : State.Of n) : KeepsUnits (State.Of.reset n) (resetUnits s) :=
  ⟨resetUnits_P s, resetUnits_eng s, resetUnits_bc s, resetUnits_beacon s⟩

theorem allFieldsZero_resetUnits (s : State.Of n) : AllFieldsZero (resetUnits s) :=
  (allFieldsZero_reset n).of_keepsUnits (keepsUnits_reset_resetUnits s)

end Sys2Proof.Machine

namespace Sys2Proof.Proofs
open Sys2Proof.Machine

/-- Settles O9: a reset step leads to `resetUnits` of the state with its input taken off, whose units are
those of the reset state and whose ports have presented nothing more. -/
theorem resetZeroesEveryField : Obligations.ResetZeroesEveryField := by
  refine ⟨allFieldsZero_reset Config.nch, fun s rest hinput => ?_⟩
  have hstep : step s = .next (resetUnits (popInput rest s)) := step_reset s hinput
  have hemits : Emits s (resetUnits (popInput rest s)) [] := by simp [Emits]
  exact ⟨_, hstep, allFieldsZero_resetUnits _, hemits, by simp, by simp⟩

end Sys2Proof.Proofs
end

section
/-! PROOF. Which command words are illegal (30_encoding.md R89), that such a word is answered ILLEGAL in every
state, and the order of the checks XMIT makes after it (R90). -/

namespace Sys2Proof

/-! ### The operands a format accepts (R81, R89) -/

/-- The operand fields a word of the given format may have: fixed bits zero, the index one of the twelve
registers, the value one the register may hold. -/
def Format.Accepts (p : Config.Params) (idx : Byte) (data : Half) : Format → Prop
  | .n => idx = 0 ∧ data = 0
  | .b => idx = 0 ∧ dataHigh data = 0
  | .p => idx.toNat < 12 ∧ (idx.toNat = 4 → data.toNat ≤ 1) ∧
      (idx.toNat = 10 → data.toNat < 2 ^ p.nch)
  | .r => data = 0 ∧ idx.toNat < 12

/-- The decoder of a row accepts what the row's format accepts. -/
theorem decodeOp_ok_iff (p : Config.Params) (o : Op) (idx : Byte) (data : Half) :
    (∃ i, decodeOp p o idx data = .ok i) ↔ o.format.Accepts p idx data := by
  cases o <;> simp [decodeOp, Op.format, Format.Accepts, decodeN_eq_ok, decodeB_eq_ok, decodeP_eq_ok,
    decodeR_eq_ok]

theorem decodeFor_of_code {p : Config.Params} {w : Word} {o : Op} (h : opField w = o.code) :
    decodeFor p w = decodeOp p o (idxField w) (dataField w) := by
  rw [decodeFor, h, ofCode_code]

theorem decodeFor_of_unassigned {p : Config.Params} {w : Word} (h : ∀ o : Op, opField w ≠ o.code) :
    decodeFor p w = .error .opcodeUnassigned := by
  rw [decodeFor, ofCode_none.mpr h]

/-! ### The items of R89 -/

theorem Op.code_injective {o o' : Op} (h : o.code = o'.code) : o = o' :=
  Option.some.inj (by rw [← ofCode_code o, h, ofCode_code])

/-- An opcode of a row in the given format. -/
def OpcodeOf (f : Format) (c : Byte) : Prop := ∃ o : Op, c = o.code ∧ o.format = f

@[simp] theorem opcodeOf_code (f : Format) (o : Op) : OpcodeOf f o.code ↔ o.format = f := by
  constructor
  · rintro ⟨o', hcode, hf⟩
    rwa [Op.code_injective hcode]
  · exact fun hf => ⟨o, rfl, hf⟩

/-- PSET is the one row of format P. -/
theorem code_eq_pset_iff (o : Op) : o.code = 0x01 ↔ o.format = .p := by cases o <;> decide

/-- PGET is the one row of format R. -/
theorem code_eq_pget_iff (o : Op) : o.code = 0x02 ↔ o.format = .r := by cases o <;> decide

/-- R89 (b): a field the format fixes is not zero. -/
def FixedFieldNotZero (c idx : Byte) (data : Half) : Prop :=
  ((OpcodeOf .n c ∨ OpcodeOf .b c) ∧ idx ≠ 0) ∨ ((OpcodeOf .n c ∨ OpcodeOf .r c) ∧ data ≠ 0) ∨
    (OpcodeOf .b c ∧ dataHigh data ≠ 0)

/-- R89 (c): PSET or PGET of a register there is not. -/
def ParamIndexReserved (c idx : Byte) : Prop := (c = 0x01 ∨ c = 0x02) ∧ 12 ≤ idx.toNat

/-- R89 (d): PSET of a value the register may not hold. -/
def ParamValueIllegal (p : Config.Params) (c idx : Byte) (data : Half) : Prop :=
  c = 0x01 ∧ ((idx.toNat = 4 ∧ 1 < data.toNat) ∨ (idx.toNat = 10 ∧ 2 ^ p.nch ≤ data.toNat))

/-- R89: one of (a) to (d) holds of the word. -/
def WordIllegal (p : Config.Params) (w : Word) : Prop :=
  (¬ ∃ o : Op, opField w = o.code) ∨ FixedFieldNotZero (opField w) (idxField w) (dataField w) ∨
    ParamIndexReserved (opField w) (idxField w) ∨
    ParamValueIllegal p (opField w) (idxField w) (dataField w)

/-- With an assigned opcode, (b) to (d) together say that the row's format refuses the operands. -/
theorem operandItems_iff_not_accepts (p : Config.Params) (o : Op) (idx : Byte) (data : Half) :
    (FixedFieldNotZero o.code idx data ∨ ParamIndexReserved o.code idx ∨
      ParamValueIllegal p o.code idx data) ↔ ¬ o.format.Accepts p idx data := by
  simp only [FixedFieldNotZero, ParamIndexReserved, ParamValueIllegal, opcodeOf_code, code_eq_pset_iff,
    code_eq_pget_iff]
  cases o.format with
  | n => simp [Format.Accepts, imp_iff_not_or]
  | b => simp [Format.Accepts, imp_iff_not_or]
  | p => simp [Format.Accepts, not_and_or, -not_and]
  | r => simp [Format.Accepts, imp_iff_not_or]

/-- The words the decoder rejects are those R89 calls illegal. -/
theorem wordIllegal_iff_not_ok (p : Config.Params) (w : Word) :
    WordIllegal p w ↔ ¬ ∃ i, decodeFor p w = .ok i := by
  by_cases hknown : ∃ o : Op, opField w = o.code
  · obtain ⟨o, ho⟩ := hknown
    rw [decodeFor_of_code ho, decodeOp_ok_iff, ← operandItems_iff_not_accepts, ← ho]
    exact or_iff_right (not_not_intro ⟨o, ho⟩)
  · have hrejected := decodeFor_of_unassigned (p := p) (not_exists.mp hknown)
    simp [WordIllegal, hknown, hrejected]

theorem WordIllegal.rejected {p : Config.Params} {w : Word} (h : WordIllegal p w) :
    ∃ e, decodeFor p w = .error e := by
  cases hd : decodeFor p w with
  | error e => exact ⟨e, rfl⟩
  | ok i => exact absurd ⟨i, hd⟩ ((wordIllegal_iff_not_ok p w).mp h)

/-- `DATA[15:8]` is bits 15:8 of the word (R81). -/
theorem dataHigh_dataField (w : Word) : dataHigh (dataField w) = w.extractLsb' 8 8 := by
  ext i hi
  simp [dataHigh, dataField]

/-- The XMIT words R89 (b) makes illegal (R90). -/
theorem wordIllegal_xmit {p : Config.Params} {w : Word} (hop : opField w = Op.xmit.code)
    (h : idxField w ≠ 0 ∨ dataHigh (dataField w) ≠ 0) : WordIllegal p w := by
  have hformat : OpcodeOf .b (opField w) := ⟨.xmit, hop, rfl⟩
  refine .inr (.inl ?_)
  obtain hidx | hdata := h
  · exact .inl ⟨.inr hformat, hidx⟩
  · exact .inr (.inr ⟨hformat, hdata⟩)

end Sys2Proof

namespace Sys2Proof.Machine

variable {n : Nat}

/-! ### Error answers (60_exceptions.md R205, R209) -/

/-- From `s` to `t` the status `st` was answered with value 0, and nothing else happened. -/
def OnlyAnswersError (st : Status) (s t : State.Of n) : Prop :=
  Answers s t st 0 ∧ KeepsUnits s t ∧ Emits s t []

theorem onlyAnswersError_answerError (st : Status) (s : State.Of n) :
    OnlyAnswersError st s (answerError st s) := by
  simp [OnlyAnswersError, answerError_eq_respond, Answers, KeepsUnits, KeepsParams, KeepsEngine,
    KeepsBroadcaster, KeepsBeacon, Emits]

/-- An illegal word is answered ILLEGAL in every state (R89, R90). -/
theorem acceptWord_illegal {w : Word} (s : State) (h : WordIllegal Config.params w) :
    acceptWord w s = .next (answerError .illegal s) := by
  obtain ⟨e, he⟩ := h.rejected
  exact acceptWord_error s he

/-! ### The refusals of XMIT (42_tone_engine.md R133) -/

theorem execXmit_inert (b : Byte) (s : State.Of n) (h : s.eng.existsBit = false) :
    execXmit b s = .next (answerError .inert s) := by
  rw [execXmit, if_pos h]

theorem execXmit_busy (b : Byte) (s : State.Of n) (hexists : s.eng.existsBit = true)
    (htx : s.eng.isTransmitting = true) : execXmit b s = .next (answerError .busy s) := by
  rw [execXmit, if_neg (by simp [hexists]), if_pos htx]

theorem exec_xmit (b : Byte) (s : State) : exec (.xmit b) s = execXmit b s := rfl

end Sys2Proof.Machine

namespace Sys2Proof.Proofs
open Sys2Proof.Machine

/-- Settles O5: the items (a) to (d) of R89 are `WordIllegal`, which holds of exactly the words the decoder
rejects. -/
theorem illegalWordsAnsweredIllegal : Obligations.IllegalWordsAnsweredIllegal := by
  intro s w rest hinput
  refine ⟨fun hillegal => ?_, fun hlegal => ?_⟩
  · have hstep : step s = .next (answerError .illegal (popInput rest s)) :=
      (step_command s hinput).trans (acceptWord_illegal _ hillegal)
    obtain ⟨⟨hresponse, hrest⟩, hunits, hevents⟩ :=
      onlyAnswersError_answerError .illegal (popInput rest s)
    exact ⟨_, hstep, hunits, hevents, hresponse, hrest⟩
  · exact not_not.mp (mt (wordIllegal_iff_not_ok Config.params w).mpr hlegal)

/-- Settles O23: each refusal is an error answer, ILLEGAL from the word alone, INERT from the engine's
absence alone, BUSY only after both. -/
theorem xmitOrderOfChecks : Obligations.XmitOrderOfChecks := by
  refine ⟨fun w e s he => ?_, fun w s hop hfields => ?_, fun b s hinert => ?_, fun b s hexists htx => ?_⟩
  · exact ⟨_, acceptWord_error s he, onlyAnswersError_answerError .illegal s⟩
  · rw [← dataHigh_dataField] at hfields
    exact ⟨_, acceptWord_illegal s (wordIllegal_xmit hop hfields),
      onlyAnswersError_answerError .illegal s⟩
  · exact ⟨_, (exec_xmit b s).trans (execXmit_inert b s hinert),
      onlyAnswersError_answerError .inert s⟩
  · exact ⟨_, (exec_xmit b s).trans (execXmit_busy b s hexists htx),
      onlyAnswersError_answerError .busy s⟩

end Sys2Proof.Proofs
end

section
/-! PROOF. The two parameter commands (40_parameters.md): the numbers of their words, the branches of PSET
(R110), and PGET as a read that changes nothing (R111). -/

namespace Sys2Proof

/-! ### A command's word as a number (30_encoding.md R81) -/

/-- A word as a number, from its three fields. -/
theorem word_toNat (w : Word) :
    w.toNat = (opField w).toNat * 0x1000000 + (idxField w).toNat * 0x10000 + (dataField w).toNat := by
  simp only [opField, idxField, dataField, BitVec.extractLsb'_toNat, Nat.shiftRight_eq_div_pow]
  have := w.isLt
  omega

theorem encode_toNat (i : Instr) : (encode i).toNat =
    i.op.code.toNat * 0x1000000 + i.idxOperand.toNat * 0x10000 + i.dataOperand.toNat := by
  rw [word_toNat, opField_encode, idxField_encode, dataField_encode]

theorem encode_pset_toNat (idx : Byte) (value : Half) :
    (encode (.pset idx value)).toNat = 0x01000000 + idx.toNat * 0x10000 + value.toNat := by
  simp [encode_toNat, Instr.op, Op.code, Instr.idxOperand, Instr.dataOperand]

theorem encode_pget_toNat (idx : Byte) :
    (encode (.pget idx)).toNat = 0x02000000 + idx.toNat * 0x10000 := by
  simp [encode_toNat, Instr.op, Op.code, Instr.idxOperand, Instr.dataOperand]

/-- R89 (b) for PGET: the format has no `DATA`. -/
theorem wordIllegal_pget {p : Config.Params} {w : Word} (hop : opField w = Op.pget.code)
    (hdata : dataField w ≠ 0) : WordIllegal p w :=
  .inr (.inl (.inr (.inl ⟨.inr ⟨.pget, hop, rfl⟩, hdata⟩)))

end Sys2Proof

namespace Sys2Proof.Machine

variable {n : Nat}

/-! ### The branches of PSET (R110) and PGET (R111) -/

/-- A PSET that R110 answers ILLEGAL on a TFMS with `n` channels: no such register, or a value the register
may not hold. -/
abbrev PsetIllegal (n : Nat) (idx : Byte) (value : Half) : Prop :=
  12 ≤ idx.toNat ∨ (idx.toNat = 4 ∧ 1 < value.toNat) ∨ (idx.toNat = 10 ∧ 2 ^ n ≤ value.toNat)

theorem execPset_illegal {idx : Byte} {value : Half} (s : State.Of n) (h : PsetIllegal n idx value) :
    execPset idx value s = .next (answerError .illegal s) := by
  obtain hidx | ⟨hidx, hvalue⟩ | ⟨hidx, hvalue⟩ := h
  · rw [execPset, dif_neg (Nat.not_lt.mpr hidx)]
  · rw [execPset, dif_pos (hidx.trans_lt (by decide)), if_pos ⟨hidx, hvalue⟩]
  · rw [execPset, dif_pos (hidx.trans_lt (by decide)), if_neg (by omega), if_pos ⟨hidx, hvalue⟩]

theorem execPset_legal {idx : Byte} {value : Half} (s : State.Of n) (hidx : idx.toNat < Config.nparam)
    (h : ¬ PsetIllegal n idx value) :
    execPset idx value s = .next (respond .ok 0 (writeParam ⟨idx.toNat, hidx⟩ value s)) := by
  obtain ⟨-, halphabet, hmask⟩ := by simpa only [PsetIllegal, not_or] using h
  rw [execPset, dif_pos hidx, if_neg halphabet, if_neg hmask]

theorem execPget_register {idx : Byte} (s : State.Of n) (hidx : idx.toNat < Config.nparam) :
    execPget idx s = .next (respond .ok s.P[idx.toNat] s) := by
  rw [execPget, dif_pos hidx, readParam, Fin.getElem_fin]

theorem execPget_reserved {idx : Byte} (s : State.Of n) (hidx : 12 ≤ idx.toNat) :
    execPget idx s = .next (answerError .illegal s) := by
  rw [execPget, dif_neg (Nat.not_lt.mpr hidx)]

theorem exec_pset (idx : Byte) (value : Half) (s : State) :
    exec (.pset idx value) s = execPset idx value s := rfl

theorem exec_pget (idx : Byte) (s : State) : exec (.pget idx) s = execPget idx s := rfl

/-! ### What an answer and a register write leave alone -/

theorem answers_respond (st : Status) (v : Half) (s : State.Of n) : Answers s (respond st v s) st v :=
  ⟨respond_responses st v s, respond_input st v s⟩

theorem keepsUnits_respond (st : Status) (v : Half) (s : State.Of n) : KeepsUnits s (respond st v s) :=
  ⟨respond_P st v s, respond_eng st v s, respond_bc st v s, respond_beacon st v s⟩

theorem emits_nil_respond (st : Status) (v : Half) (s : State.Of n) : Emits s (respond st v s) [] := by
  simp [Emits]

end Sys2Proof.Machine

namespace Sys2Proof.Proofs
open Sys2Proof.Machine

/-- Settles O18: the three ILLEGAL branches are `PsetIllegal`, an error answer; outside it one register is
written, and neither the write nor the answer reaches a unit. -/
theorem psetWritesOneRegister : Obligations.PsetWritesOneRegister := by
  intro idx value s
  refine ⟨encode_pset_toNat idx value, ?_⟩
  rw [exec_pset]
  by_cases hillegal : PsetIllegal Config.nch idx value
  · obtain ⟨hanswer, ⟨hP, heng, hbc, hbeacon⟩, hevents⟩ := onlyAnswersError_answerError .illegal s
    refine ⟨_, execPset_illegal s hillegal, heng, hbc, hbeacon, hevents, ?_⟩
    rw [if_pos hillegal]
    exact ⟨hanswer, hP⟩
  · have hidx : idx.toNat < Config.nparam := Nat.lt_of_not_le fun h => hillegal (.inl h)
    obtain ⟨-, heng, hbc, hbeacon⟩ := keepsUnits_respond .ok 0 (writeParam ⟨idx.toNat, hidx⟩ value s)
    refine ⟨_, execPset_legal s hidx hillegal, heng, hbc, hbeacon, emits_nil_respond .ok 0 _, ?_⟩
    rw [if_neg hillegal]
    refine ⟨answers_respond .ok 0 _, fun j => ?_⟩
    simp only [respond_P, writeParam_get, Fin.ext_iff]

/-- Settles O19: below 12 the answer carries the register, from 12 on it is the ILLEGAL answer, and a word
with `DATA` not 0 is illegal whatever the state. -/
theorem pgetReadsRegister : Obligations.PgetReadsRegister := by
  refine ⟨encode_pget_toNat, fun idx s => ?_, fun w s hop hdata => ?_⟩
  · rw [exec_pget]
    obtain hidx | hidx := Nat.lt_or_ge idx.toNat Config.nparam
    · exact ⟨_, execPget_register s hidx, keepsUnits_respond _ _ s, emits_nil_respond _ _ s,
        fun hreserved => absurd hidx (Nat.not_lt.mpr hreserved), fun _ => answers_respond _ _ s⟩
    · obtain ⟨hanswer, hunits, hevents⟩ := onlyAnswersError_answerError .illegal s
      exact ⟨_, execPget_reserved s hidx, hunits, hevents, fun _ => hanswer,
        fun hregister => absurd hregister (Nat.not_lt.mpr hidx)⟩
  · exact ⟨_, acceptWord_illegal s (wordIllegal_pget hop hdata),
      onlyAnswersError_answerError .illegal s⟩

end Sys2Proof.Proofs
end

section
/-! PROOF. QTX reads the transmitting flag and changes nothing; STOP commands silence and clears the
transmission state, which leaves the engine idle (42_tone_engine.md R145, R146). -/

namespace Sys2Proof.Machine

variable {n : Nat}

theorem exec_qtx (s : State) : exec .qtx s = execQtx s := rfl

theorem exec_stop (s : State) : exec .stop s = execStop s := rfl

theorem exec_adv (s : State) : exec .adv s = execAdv s := rfl

/-! ### The transmitting flag -/

theorem answers_flag (b : Bool) (s : State.Of n) :
    Answers s (respond .ok (flagValue b) s) .ok (if b then 1 else 0) :=
  answers_respond .ok (flagValue b) s

/-- An inert engine transmits nothing (10_state.md R30 (b)). -/
theorem EngineOk.not_transmitting_of_inert {e : Eng} (h : EngineOk e) (hinert : e.existsBit = false) :
    e.isTransmitting = false :=
  Bool.eq_false_iff.mpr fun htx => Bool.false_ne_true (hinert.symm.trans (h.live htx))

/-! ### Silence and clearing, as CREATE, STOP and DESTROY have them (R132, R139) -/

theorem txClear_clearTx (s : State.Of n) : TxClear (clearTx s).eng :=
  ⟨clearTx_isTransmitting s, clearTx_symbolIndex s, clearTx_tickCounter s,
    fun k => Vector.getElem_replicate k.isLt⟩

theorem clearTx_command_zero_currentFreq (s : State.Of n) :
    (clearTx (command 0 s)).eng.currentFreq = 0 := by
  rw [clearTx_currentFreq, command_currentFreq, narrowFreq_zero]

theorem emits_clearTx_command_zero (s : State.Of n) :
    Emits s (clearTx (command 0 s)) (changeEvent .eng 0 s.eng.currentFreq 0) := by
  rw [Emits, clearTx_port, command_events, narrowFreq_zero]

theorem answers_respond_clearTx_command (st : Status) (v : Half) (f : Int) (s : State.Of n) :
    Answers s (respond st v (clearTx (command f s))) st v := by
  simp [Answers]

end Sys2Proof.Machine

namespace Sys2Proof.Proofs
open Sys2Proof.Machine

/-- Settles O28: the answer is the flag, which R30 (b) makes 0 on an inert engine and which is set during a
pause as outside one. -/
theorem qtxReportsTransmitting : Obligations.QtxReportsTransmitting := by
  refine ⟨by decide, fun s => ?_⟩
  have hanswer := answers_flag s.eng.isTransmitting s
  refine ⟨_, exec_qtx s, keepsUnits_respond _ _ s, emits_nil_respond _ _ s, hanswer,
    fun hok hinert => ?_, fun htx _ => ?_⟩
  · rwa [if_neg (by simp [hok.not_transmitting_of_inert hinert])] at hanswer
  · rwa [if_pos htx] at hanswer

/-- Settles O29: `Command(0)` and `ClearTx` act on the engine alone, and the cleared flag is what makes the
next ADV take its idle arm. -/
theorem stopSilencesAndClears : Obligations.StopSilencesAndClears := by
  refine ⟨by decide, fun s => ?_⟩
  have hidle := execAdv_idle (respond .ok (flagValue s.eng.isTransmitting) (clearTx (command 0 s)))
    (clearTx_isTransmitting _)
  exact ⟨_, exec_stop s, txClear_clearTx _, clearTx_command_zero_currentFreq s, command_cfg 0 s,
    command_existsBit 0 s, command_P 0 s, command_bc 0 s, command_beacon 0 s,
    emits_clearTx_command_zero s, answers_respond_clearTx_command _ _ 0 s,
    _, (exec_adv _).trans hidle, answers_respond _ _ _, emits_nil_respond _ _ _⟩

end Sys2Proof.Proofs
end

section
/-! PROOF. ITICK arm by arm: what it presents and answers follows the beacon alone, and the latch is clear
after it (44_beacon.md R193, R194). -/

namespace Sys2Proof.Machine

variable {n : Nat}

/-! ### The events of an ITICK, arm by arm (R193, R195) -/

/-- Arm A. -/
theorem tickEvents_start (freq mask ticks : Half) (b : Beacon n) (ha : b.idActive = false)
    (hr : b.req = true) : b.tickEvents freq mask ticks = beaconEvents (b.start mask).heldMask freq := by
  simp [Beacon.tickEvents, ha, hr]

/-- Arm D. -/
theorem tickEvents_dormant (freq mask ticks : Half) (b : Beacon n) (ha : b.idActive = false)
    (hr : b.req = false) : b.tickEvents freq mask ticks = [] := by
  simp [Beacon.tickEvents, ha, hr]

theorem Beacon.holdOver_iff (ticks : Half) (b : Beacon n) :
    b.holdOver ticks = true ↔ ticks.toNat ≤ b.idCounter.toNat + 1 := decide_eq_true_iff

/-- Arm C, the hold goes on. -/
theorem tickEvents_hold (freq mask ticks : Half) (b : Beacon n) (ha : b.idActive = true)
    (h : b.idCounter.toNat + 1 < ticks.toNat) : b.tickEvents freq mask ticks = [] := by
  have hgoes : ¬ b.holdOver ticks = true := mt (b.holdOver_iff ticks).mp (Nat.not_le.mpr h)
  rw [Beacon.tickEvents, if_pos ha, if_neg hgoes]

/-- Arm C2, the hold is over. -/
theorem tickEvents_over (freq mask ticks : Half) (b : Beacon n) (ha : b.idActive = true)
    (h : ticks.toNat ≤ b.idCounter.toNat + 1) :
    b.tickEvents freq mask ticks = beaconEvents b.heldMask 0 := by
  rw [Beacon.tickEvents, if_pos ha, if_pos ((b.holdOver_iff ticks).mpr h)]

/-- The snapshot of the mask has the bits of the register (R193 (b)). -/
theorem Beacon.start_heldMask_getLsbD (mask : Half) (b : Beacon n) {k : Nat} (hk : k < n) :
    (b.start mask).heldMask.getLsbD k = mask.getLsbD k := by
  simp [Beacon.start, hk]

/-! ### What an ITICK does to the machine -/

/-- From `s` to `t` one ITICK ran: the beacon ticked, its events and its flag were presented, and the rest
is as it was. -/
structure ItickRan (s t : State.Of n) : Prop where
  params : KeepsParams s t
  engine : KeepsEngine s t
  broadcaster : KeepsBroadcaster s t
  beacon : t.beacon = s.beacon.ticked s.P[10] s.P[11]
  events : Emits s t (s.beacon.tickEvents s.P[9] s.P[10] s.P[11])
  answer : Answers s t .ok (flagValue t.beacon.idActive)

theorem exec_itick (s : State) : exec .itick s = execItick s := rfl

/-- ITICK ends in a state on every parameter value (R191). -/
theorem execItick_ran (s : State.Of n) : ∃ t, execItick s = .next t ∧ ItickRan s t :=
  ⟨_, rfl, respond_P _ _ _, respond_eng _ _ _, respond_bc _ _ _, respond_beacon _ _ _,
    emitAll_events _ _, respond_responses _ _ _, respond_input _ _ _⟩

namespace ItickRan

variable {s t : State.Of n}

/-- Arm A: the start. -/
theorem start (h : ItickRan s t) (ha : s.beacon.idActive = false) (hr : s.beacon.req = true) :
    t.beacon = s.beacon.start s.P[10] ∧ Emits s t (beaconEvents t.beacon.heldMask s.P[9]) ∧
    Answers s t .ok 1 := by
  have hbeacon : t.beacon = s.beacon.start s.P[10] := h.beacon.trans (ticked_start _ _ _ ha hr)
  have hevents := h.events
  have hanswer := h.answer
  rw [tickEvents_start _ _ _ _ ha hr, ← hbeacon] at hevents
  rw [hbeacon] at hanswer
  exact ⟨hbeacon, hevents, hanswer⟩

/-- Arm D: dormant without a request. -/
theorem dormant (h : ItickRan s t) (ha : s.beacon.idActive = false) (hr : s.beacon.req = false) :
    KeepsBeacon s t ∧ Emits s t [] ∧ Answers s t .ok 0 := by
  have hbeacon : t.beacon = s.beacon := h.beacon.trans (ticked_dormant _ _ _ ha hr)
  have hevents := h.events
  have hanswer := h.answer
  rw [tickEvents_dormant _ _ _ _ ha hr] at hevents
  rw [hbeacon, ha] at hanswer
  exact ⟨hbeacon, hevents, hanswer⟩

/-- Arm C: the hold goes on. -/
theorem hold (h : ItickRan s t) (ha : s.beacon.idActive = true)
    (hlt : s.beacon.idCounter.toNat + 1 < s.P[11].toNat) :
    t.beacon.idActive = true ∧ t.beacon.idCounter.toNat = s.beacon.idCounter.toNat + 1 ∧
    t.beacon.heldMask = s.beacon.heldMask ∧ Emits s t [] ∧ Answers s t .ok 1 := by
  obtain ⟨hactive, -, hmask, hcount⟩ := h.beacon ▸ ticked_hold s.P[10] s.P[11] s.beacon ha hlt
  have hevents := h.events
  have hanswer := h.answer
  rw [tickEvents_hold _ _ _ _ ha hlt] at hevents
  rw [hactive] at hanswer
  exact ⟨hactive, hcount, hmask, hevents, hanswer⟩

/-- Arm C2: the hold is over, and silence goes to the channels the mask held. -/
theorem hold_over (h : ItickRan s t) (ha : s.beacon.idActive = true)
    (hle : s.P[11].toNat ≤ s.beacon.idCounter.toNat + 1) :
    t.beacon = Beacon.reset n ∧ Emits s t (beaconEvents s.beacon.heldMask 0) ∧
    Answers s t .ok 0 := by
  have hbeacon : t.beacon = Beacon.reset n := h.beacon.trans (ticked_over _ _ _ ha hle)
  have hevents := h.events
  have hanswer := h.answer
  rw [tickEvents_over _ _ _ _ ha hle] at hevents
  rw [hbeacon] at hanswer
  exact ⟨hbeacon, hevents, hanswer⟩

/-- A request is served or dropped (R194). -/
theorem req_clear (h : ItickRan s t) : t.beacon.req = false :=
  h.beacon ▸ ticked_req _ _ s.beacon

end ItickRan

end Sys2Proof.Machine

namespace Sys2Proof.Proofs
open Sys2Proof.Machine

/-- Settles O50: ITICK ticks the beacon and presents its events and its flag, so each arm is the arm of
`Beacon.ticked` and `Beacon.tickEvents` that the flag, the latch and the count select. -/
theorem itickFollowsItsArms : Obligations.ItickFollowsItsArms := by
  refine ⟨by decide, fun s => ?_⟩
  obtain ⟨t, hexec, hran⟩ := execItick_ran s
  refine ⟨t, (exec_itick s).trans hexec, hran.params, hran.engine, hran.broadcaster, hran.req_clear,
    fun ha hr => ?_, hran.dormant, hran.hold, fun ha hle => ?_⟩
  · obtain ⟨hbeacon, hevents, hanswer⟩ := hran.start ha hr
    refine ⟨congrArg Beacon.idActive hbeacon, congrArg Beacon.idCounter hbeacon, fun k hk => ?_,
      hevents, hanswer⟩
    rw [hbeacon, Beacon.start_heldMask_getLsbD _ _ hk]
  · obtain ⟨hbeacon, hevents, hanswer⟩ := hran.hold_over ha hle
    exact ⟨congrArg Beacon.idActive hbeacon, congrArg Beacon.idCounter hbeacon,
      congrArg Beacon.heldMask hbeacon, hevents, hanswer⟩

end Sys2Proof.Proofs
end

section
/-! PROOF. The decoder and the encoder are inverse on the well-formed commands, for every number of channels
(30_encoding.md R81, R86, R89, R92). -/

namespace Sys2Proof

/-! ### A word and its fields (R81) -/

/-- Two words with the same fields are the same word. -/
theorem word_eq_of_fields {w w' : Word} (hop : opField w = opField w') (hidx : idxField w = idxField w')
    (hdata : dataField w = dataField w') : w = w' := by
  rw [← word_fields w, ← word_fields w', hop, hidx, hdata]

theorem encode_eq_iff (i : Instr) (w : Word) :
    encode i = w ↔ opField w = i.op.code ∧ idxField w = i.idxOperand ∧ dataField w = i.dataOperand := by
  constructor
  · rintro rfl
    exact ⟨opField_encode i, idxField_encode i, dataField_encode i⟩
  · rintro ⟨hop, hidx, hdata⟩
    exact word_eq_of_fields ((opField_encode i).trans hop.symm) ((idxField_encode i).trans hidx.symm)
      ((dataField_encode i).trans hdata.symm)

/-! ### What a row's decoder accepts -/

theorem wfParamValue_iff (p : Config.Params) (idx : Byte) (value : Half) :
    wfParamValue p idx value = true ↔
      (idx.toNat = 4 → value.toNat ≤ 1) ∧ (idx.toNat = 10 → value.toNat < 2 ^ p.nch) := by
  simp [wfParamValue, imp_iff_not_or]

theorem zext_toNat (b : Byte) : (b.setWidth 16).toNat = b.toNat :=
  BitVec.toNat_setWidth_of_le (by decide)

/-- A row's decoder gives back only a command of the row, with the operands it was given. -/
theorem operands_of_decodeOp {p : Config.Params} {o : Op} {idx : Byte} {data : Half} {i : Instr}
    (h : decodeOp p o idx data = .ok i) :
    i.op = o ∧ i.idxOperand = idx ∧ i.dataOperand = data := by
  cases o with
  | pset =>
    obtain ⟨-, -, -, rfl⟩ := decodeP_eq_ok.mp h
    exact ⟨rfl, rfl, rfl⟩
  | pget =>
    obtain ⟨rfl, -, rfl⟩ := decodeR_eq_ok.mp h
    exact ⟨rfl, rfl, rfl⟩
  | xmit | bmsg =>
    obtain ⟨rfl, hhigh, rfl⟩ := decodeB_eq_ok.mp h
    exact ⟨rfl, rfl, zext_dataByte data hhigh⟩
  | create | adv | qtx | stop | destroy | breq | btick | ireq | itick =>
    obtain ⟨rfl, rfl, rfl⟩ := decodeN_eq_ok.mp h
    exact ⟨rfl, rfl, rfl⟩

/-- A command's own row and operands decode to it exactly if it is well-formed. -/
theorem decodeOp_operands (p : Config.Params) (i : Instr) :
    decodeOp p i.op i.idxOperand i.dataOperand = .ok i ↔ i.wfFor p = true := by
  cases i with
  | pset idx value =>
    simp [decodeOp, Instr.op, Instr.idxOperand, Instr.dataOperand, decodeP_eq_ok, Instr.wfFor,
      wfParamIndex, wfParamValue_iff]
  | pget idx =>
    simp [decodeOp, Instr.op, Instr.idxOperand, Instr.dataOperand, decodeR_eq_ok, Instr.wfFor,
      wfParamIndex]
  | xmit b | bmsg b =>
    exact iff_of_true (decodeB_eq_ok.mpr ⟨rfl, dataHigh_zext b, congrArg _ (dataByte_zext b)⟩) rfl
  | create | adv | qtx | stop | destroy | breq | btick | ireq | itick => exact iff_of_true rfl rfl

/-- The decoder and the encoder are inverse (R89, R91): the field `OP` picks the row, and the row's decoder
reads back the operands. -/
theorem decodeFor_eq_ok (p : Config.Params) (w : Word) (i : Instr) :
    decodeFor p w = .ok i ↔ i.wfFor p = true ∧ encode i = w := by
  constructor
  · intro h
    cases ho : Op.ofCode (opField w) with
    | none =>
      rw [decodeFor_of_unassigned (ofCode_none.mp ho)] at h
      cases h
    | some o =>
      have hcode := (code_of_ofCode ho).symm
      rw [decodeFor_of_code hcode] at h
      obtain ⟨hop, hidx, hdata⟩ := operands_of_decodeOp h
      rw [← hop, ← hidx, ← hdata, decodeOp_operands] at h
      exact ⟨h, (encode_eq_iff i w).mpr ⟨hop ▸ hcode, hidx.symm, hdata.symm⟩⟩
  · rintro ⟨hwf, rfl⟩
    rw [decodeFor_of_code (opField_encode i), idxField_encode, dataField_encode, decodeOp_operands]
    exact hwf

/-! ### The match and mask table (R86) -/

theorem opField_and (w w' : Word) : opField (w &&& w') = opField w &&& opField w' :=
  BitVec.extractLsb'_and

theorem idxField_and (w w' : Word) : idxField (w &&& w') = idxField w &&& idxField w' :=
  BitVec.extractLsb'_and

theorem dataField_and (w w' : Word) : dataField (w &&& w') = dataField w &&& dataField w' :=
  BitVec.extractLsb'_and

/-- A word that satisfies a row's match and mask has the row's `OP`. -/
theorem opField_of_matches {w : Word} {o : Op} (h : w &&& o.mask = o.matchBits) :
    opField w = o.code := by
  have hmask : opField o.mask = BitVec.allOnes 8 := by cases o <;> decide
  have hmatch : opField o.matchBits = o.code := by cases o <;> decide
  rw [← hmatch, ← h, opField_and, hmask, BitVec.and_allOnes]

theorem and_high_of_dataHigh {data : Half} (h : dataHigh data = 0) : data &&& 0xFF00 = 0 := by
  rw [← zext_dataByte data h]
  generalize dataByte data = b
  revert b
  decide

/-- The operands a format accepts are zero wherever the row's mask fixes a bit. -/
theorem operands_and_mask {p : Config.Params} {o : Op} {idx : Byte} {data : Half}
    (h : o.format.Accepts p idx data) :
    idx &&& idxField o.mask = 0 ∧ data &&& dataField o.mask = 0 := by
  unfold Op.mask
  cases hformat : o.format <;> rw [hformat] at h
  case n =>
    obtain ⟨rfl, rfl⟩ := h
    exact ⟨BitVec.zero_and, BitVec.zero_and⟩
  case b =>
    obtain ⟨rfl, hhigh⟩ := h
    exact ⟨BitVec.zero_and, and_high_of_dataHigh hhigh⟩
  case p => exact ⟨BitVec.and_zero, BitVec.and_zero⟩
  case r =>
    obtain ⟨rfl, -⟩ := h
    exact ⟨BitVec.and_zero, BitVec.zero_and⟩

/-- A word whose row accepts its operands satisfies the row's match and mask. -/
theorem matches_of_accepts {p : Config.Params} {w : Word} {o : Op} (hop : opField w = o.code)
    (h : o.format.Accepts p (idxField w) (dataField w)) : w &&& o.mask = o.matchBits := by
  obtain ⟨hidx, hdata⟩ := operands_and_mask h
  refine word_eq_of_fields ?_ ?_ ?_
  · rw [opField_and, hop]
    cases o <;> decide
  · rw [idxField_and, hidx]
    cases o <;> decide
  · rw [dataField_and, hdata]
    cases o <;> decide

/-! ### Why a word is rejected (R89) -/

theorem decodeN_eq_error {i : Instr} {idx : Byte} {data : Half} {e : Illegal}
    (h : decodeN i idx data = .error e) :
    (e = .idxNotZero ∧ idx ≠ 0) ∨ (e = .dataNotZero ∧ data ≠ 0) := by
  unfold decodeN at h
  split_ifs at h with hidx hdata
  · cases h
    exact .inl ⟨rfl, hidx⟩
  · cases h
    exact .inr ⟨rfl, hdata⟩

theorem decodeB_eq_error {mk : Byte → Instr} {idx : Byte} {data : Half} {e : Illegal}
    (h : decodeB mk idx data = .error e) :
    (e = .idxNotZero ∧ idx ≠ 0) ∨ (e = .dataNotZero ∧ dataHigh data ≠ 0) := by
  unfold decodeB at h
  split_ifs at h with hidx hdata
  · cases h
    exact .inl ⟨rfl, hidx⟩
  · cases h
    exact .inr ⟨rfl, hdata⟩

theorem decodeR_eq_error {idx : Byte} {data : Half} {e : Illegal}
    (h : decodeR idx data = .error e) :
    (e = .dataNotZero ∧ data ≠ 0) ∨ (e = .paramIndexReserved ∧ 12 ≤ idx.toNat) := by
  unfold decodeR at h
  split_ifs at h with hdata hidx
  · cases h
    exact .inl ⟨rfl, hdata⟩
  · cases h
    exact .inr ⟨rfl, hidx⟩

theorem decodeP_eq_error {p : Config.Params} {idx : Byte} {data : Half} {e : Illegal}
    (h : decodeP p idx data = .error e) :
    (e = .paramIndexReserved ∧ 12 ≤ idx.toNat) ∨
    (e = .paramValueIllegal ∧
      (idx.toNat = 4 ∧ 1 < data.toNat ∨ idx.toNat = 10 ∧ 2 ^ p.nch ≤ data.toNat)) := by
  unfold decodeP at h
  split_ifs at h with hidx halphabet hmask
  · cases h
    exact .inl ⟨rfl, hidx⟩
  · cases h
    exact .inr ⟨rfl, .inl halphabet⟩
  · cases h
    exact .inr ⟨rfl, .inr hmask⟩

end Sys2Proof

namespace Sys2Proof.Proofs
open Sys2Proof.Machine

/-- Settles O57: `decodeFor_eq_ok` is the statement, for every record of parameters. -/
theorem decodeOfEncodeForAnyParameters : Obligations.DecodeOfEncodeForAnyParameters :=
  decodeFor_eq_ok

/-- Settles O2: one direction of the inverse, with the values of R7. -/
theorem decodeOfEncode : Obligations.DecodeOfEncode :=
  fun i hwf => (decodeFor_eq_ok Config.params (encode i) i).mpr ⟨hwf, rfl⟩

/-- Settles O3: the other direction, with the values of R7. -/
theorem encodeOfDecode : Obligations.EncodeOfDecode :=
  fun w i => (decodeFor_eq_ok Config.params w i).mp

/-- Settles O4: a word that decodes has operands its row's format accepts, and these are zero where the mask
fixes a bit; the mask fixes every bit of `OP`, so two rows never share a word. -/
theorem decodeFollowsMatchMask : Obligations.DecodeFollowsMatchMask := by
  refine ⟨fun w i h => ?_, fun w o o' ho ho' => ?_⟩
  · obtain ⟨-, rfl⟩ := (decodeFor_eq_ok Config.params w i).mp h
    have hop := opField_encode i
    refine matches_of_accepts hop ((decodeOp_ok_iff Config.params _ _ _).mp ⟨i, ?_⟩)
    rw [← decodeFor_of_code hop]
    exact h
  · exact Op.code_injective ((opField_of_matches ho).symm.trans (opField_of_matches ho'))

/-- Settles O6: an unassigned opcode is named before a row is found; in a row the name is one its format's
decoder gives, with the field it speaks of. -/
theorem rejectionsNameTheirCause : Obligations.RejectionsNameTheirCause := by
  intro w e h
  have h : decodeFor Config.params w = .error e := h
  cases ho : Op.ofCode (opField w) with
  | none =>
    have hop := ofCode_none.mp ho
    rw [decodeFor_of_unassigned hop] at h
    cases h
    exact hop
  | some o =>
    have hop : w.extractLsb' 24 8 = o.code := (code_of_ofCode ho).symm
    rw [decodeFor_of_code hop] at h
    cases o with
    | pset =>
      obtain ⟨rfl, hidx⟩ | ⟨rfl, hvalue⟩ := decodeP_eq_error h
      · exact ⟨hidx, .inl hop⟩
      · exact ⟨hop, hvalue⟩
    | pget =>
      obtain ⟨rfl, hdata⟩ | ⟨rfl, hidx⟩ := decodeR_eq_error h
      · exact ⟨.pget, hop, .inl ⟨.inr rfl, hdata⟩⟩
      · exact ⟨hidx, .inr hop⟩
    | xmit | bmsg =>
      obtain ⟨rfl, hidx⟩ | ⟨rfl, hdata⟩ := decodeB_eq_error h
      · exact ⟨hidx, _, hop, .inr rfl⟩
      · exact ⟨_, hop, .inr ⟨rfl, hdata⟩⟩
    | create | adv | qtx | stop | destroy | breq | btick | ireq | itick =>
      obtain ⟨rfl, hidx⟩ | ⟨rfl, hdata⟩ := decodeN_eq_error h
      · exact ⟨hidx, _, hop, .inl rfl⟩
      · exact ⟨_, hop, .inl ⟨.inl rfl, hdata⟩⟩

/-- Settles O7: a word as a number is the sum of its fields, the byte operand zero-extended. -/
theorem wordsAsNumbers : Obligations.WordsAsNumbers := by
  refine ⟨encode_pset_toNat, encode_pget_toNat, fun b => ?_, fun b => ?_, by decide⟩
  · simp [encode_toNat, Instr.op, Op.code, Instr.idxOperand, Instr.dataOperand, zext_toNat b]
  · simp [encode_toNat, Instr.op, Op.code, Instr.idxOperand, Instr.dataOperand, zext_toNat b]

/-- Settles O1: thirteen fixed words, evaluated. -/
theorem specWordsDecode : Obligations.SpecWordsDecode := by
  unfold Obligations.SpecWordsDecode
  decide

end Sys2Proof.Proofs
end

section
/-! PROOF. What each command that runs does, said once: which unit it moves, what it emits and what it
answers (00_scope.md R11, R13). The frames, the outputs and the invariants of the whole machine follow from
`CommandRan`. -/

namespace Sys2Proof.Machine

variable {n : Nat}

/-! ### Outcomes -/

/-- What is known of some next state is known of the next state. -/
theorem of_next {σ φ ρ : Type} {o : Host.Outcome σ φ ρ} {P : σ → Prop}
    (h : ∃ t, o = .next t ∧ P t) {u : σ} (hu : o = .next u) : P u := by
  obtain ⟨t, ht, hP⟩ := h
  obtain rfl : t = u := by simpa using ht.symm.trans hu
  exact hP

/-- `exec` on a TFMS with the values of R7. -/
theorem exec_eq_execFor (i : Instr) (s : State) : exec i s = execFor Config.params i s :=
  (congrFun₂ execFor_params i s).symm

theorem KeepsUnits.params {s t : State.Of n} (h : KeepsUnits s t) : KeepsParams s t := h.1

theorem KeepsUnits.engine {s t : State.Of n} (h : KeepsUnits s t) : KeepsEngine s t := h.2.1

theorem KeepsUnits.broadcaster {s t : State.Of n} (h : KeepsUnits s t) : KeepsBroadcaster s t := h.2.2.1

theorem KeepsUnits.beacon {s t : State.Of n} (h : KeepsUnits s t) : KeepsBeacon s t := h.2.2.2

theorem OnlyAnswersError.answer {st : Status} {s t : State.Of n} (h : OnlyAnswersError st s t) :
    Answers s t st 0 := h.1

theorem OnlyAnswersError.units {st : Status} {s t : State.Of n} (h : OnlyAnswersError st s t) :
    KeepsUnits s t := h.2.1

theorem OnlyAnswersError.events {st : Status} {s t : State.Of n} (h : OnlyAnswersError st s t) :
    Emits s t [] := h.2.2

/-! ### The engine's commands (42_tone_engine.md R132) -/

@[simp] theorem changeEvent_self (src : ActSrc) (ch : BitVec 4) (f : Freq) :
    changeEvent src ch f f = [] := if_pos rfl

/-- From `s` to `u` the engine alone moved, the change of its commanded frequency is what was emitted, and
nothing was answered. -/
structure EngineMoved (s u : State.Of n) : Prop where
  params : KeepsParams s u
  broadcaster : KeepsBroadcaster s u
  beacon : KeepsBeacon s u
  events : Emits s u (changeEvent .eng 0 s.eng.currentFreq u.eng.currentFreq)
  responses : u.port.responses = s.port.responses
  input : u.port.input = s.port.input

/-- From `s` to `t` an engine command was carried out, and answered `value`. -/
structure EngineRan (value : Half) (s t : State.Of n) : Prop where
  params : KeepsParams s t
  broadcaster : KeepsBroadcaster s t
  beacon : KeepsBeacon s t
  events : Emits s t (changeEvent .eng 0 s.eng.currentFreq t.eng.currentFreq)
  answer : Answers s t .ok value

/-- The live configuration and the existence flag are unchanged. -/
def KeepsCfg (s t : State.Of n) : Prop :=
  t.eng.cfg = s.eng.cfg ∧ t.eng.existsBit = s.eng.existsBit

namespace EngineMoved

variable {s u : State.Of n}

theorem refl (s : State.Of n) : EngineMoved s s := ⟨rfl, rfl, rfl, by simp [Emits], rfl, rfl⟩

theorem command (f : Int) (s : State.Of n) : EngineMoved s (command f s) :=
  ⟨command_P f s, command_bc f s, command_beacon f s, by simp [Emits], command_responses f s,
    command_input f s⟩

/-- `Command` is the only write of the commanded frequency, so any other write of the engine emits nothing. -/
theorem withEng (h : EngineMoved s u) (e : Eng) (he : e.currentFreq = u.eng.currentFreq) :
    EngineMoved s { u with eng := e } :=
  ⟨h.params, h.broadcaster, h.beacon, he ▸ h.events, h.responses, h.input⟩

/-- The same for a write before the move. -/
theorem of_withEng (e : Eng) (he : e.currentFreq = s.eng.currentFreq)
    (h : EngineMoved { s with eng := e } u) : EngineMoved s u :=
  ⟨h.params, h.broadcaster, h.beacon, he ▸ h.events, h.responses, h.input⟩

/-- An engine command is a move of the engine and then its answer (R11). -/
theorem respond (h : EngineMoved s u) (value : Half) : EngineRan value s (respond .ok value u) :=
  ⟨h.params, h.broadcaster, h.beacon, h.events, by rw [respond_responses, h.responses],
    h.input⟩

theorem clearTx (h : EngineMoved s u) : EngineMoved s (clearTx u) := h.withEng _ rfl

theorem setPosition (h : EngineMoved s u) (k : Fin 9) (t : Int) : EngineMoved s (setPosition k t u) :=
  h.withEng _ rfl

/-- A frequency commanded after a new position is set (R134). -/
theorem command_setPosition (f : Int) (k : Fin 9) (t : Int) (s : State.Of n) :
    EngineMoved s (Machine.command f (Machine.setPosition k t s)) :=
  of_withEng (Machine.setPosition k t s).eng rfl (EngineMoved.command f _)

end EngineMoved

/-! ### CREATE and XMIT as equations (R130, R133) -/

/-- The engine CREATE makes: silent, cleared, with the shadow configuration. -/
def created (s : State.Of n) : State.Of n :=
  let u := clearTx (command 0 s)
  { u with eng := { u.eng with cfg := s.shadowCfg, existsBit := true } }

theorem execCreate_wf (s : State.Of n) (h : s.shadowCfg.wfEng = true) :
    execCreate s = .next (respond .ok 0 (created s)) := if_pos h

theorem execCreate_outside (s : State.Of n) (h : ¬ s.shadowCfg.wfEng = true) :
    execCreate s = .refused .createOutsideWfEng := if_neg h

theorem created_moved (s : State.Of n) : EngineMoved s (created s) :=
  (EngineMoved.command 0 s).clearTx.withEng _ rfl

/-- The engine with the plan of a byte committed, before its first frequency is commanded. -/
def planned (byte : Byte) (s : State.Of n) : State.Of n :=
  { s with eng := { s.eng with
      symbols := encodeSymbols byte s.eng.cfg.alphabet, symbolIndex := 0, tickCounter := 0,
      isTransmitting := true } }

/-- The state XMIT leaves before its answer: the plan committed, its first frequency commanded. -/
def started (byte : Byte) (s : State.Of n) : State.Of n :=
  command (plan s.eng.cfg (encodeSymbols byte s.eng.cfg.alphabet)[0] 0) (planned byte s)

theorem execXmit_idle (b : Byte) (s : State.Of n) (hexists : s.eng.existsBit = true)
    (htx : s.eng.isTransmitting = false) :
    execXmit b s = .next (respond .ok 0 (started b s)) := by
  rw [execXmit, if_neg (by simp [hexists]), if_neg (by simp [htx])]
  rfl

theorem started_moved (b : Byte) (s : State.Of n) : EngineMoved s (started b s) :=
  .of_withEng (planned b s).eng rfl (.command _ (planned b s))

/-- The state DESTROY leaves before its answer (R148). -/
def destroyed (s : State.Of n) : State.Of n :=
  let u := clearTx (command 0 s)
  { u with eng := { u.eng with cfg := EngCfg.zero, existsBit := false } }

theorem execDestroy_eq (s : State.Of n) : execDestroy s = .next (respond .ok 0 (destroyed s)) := rfl

theorem destroyed_moved (s : State.Of n) : EngineMoved s (destroyed s) :=
  (EngineMoved.command 0 s).clearTx.withEng _ rfl

theorem execStop_eq (s : State.Of n) :
    execStop s = .next (respond .ok (flagValue s.eng.isTransmitting) (clearTx (command 0 s))) := rfl

/-! ### The arms of ADV (R134), said once -/

/-- The arm ADV takes from `s`, with the condition it is taken under and the state it leaves. -/
inductive AdvArm (s : State.Of n) : State.Of n → Prop
  /-- Arm A. -/
  | idle (htx : s.eng.isTransmitting = false) : AdvArm s (respond .ok TickOutcome.idle.code s)
  /-- Arm B: the pause goes on. -/
  | pausing (htx : s.eng.isTransmitting = true) (hneg : s.eng.tickCounter.toInt + 1 < 0) :
      AdvArm s (respond .ok TickOutcome.inProgress.code
        (setPosition s.eng.symbolIndex (s.eng.tickCounter.toInt + 1) s))
  /-- Arm C: inside a symbol, or onto its first tick after a pause. -/
  | inside (htx : s.eng.isTransmitting = true) (h0 : 0 ≤ s.eng.tickCounter.toInt + 1)
      (hlt : s.eng.tickCounter.toInt + 1 < s.eng.cfg.symbolTicks.toNat) :
      AdvArm s (respond .ok TickOutcome.inProgress.code
        (command (plan s.eng.cfg (symbolAt s.freeCount s.eng s.eng.symbolIndex.val)
          (s.eng.tickCounter.toInt + 1))
          (setPosition s.eng.symbolIndex (s.eng.tickCounter.toInt + 1) s)))
  /-- Arm D: the last symbol is over. -/
  | complete (htx : s.eng.isTransmitting = true) (h0 : 0 ≤ s.eng.tickCounter.toInt + 1)
      (hle : (s.eng.cfg.symbolTicks.toNat : Int) ≤ s.eng.tickCounter.toInt + 1)
      (hlast : s.eng.symbolIndex.val + 1 = nsym s.eng.cfg.alphabet) :
      AdvArm s (respond .ok TickOutcome.messageComplete.code (clearTx (command 0 s)))
  /-- Arm E: a symbol is over and a pause begins. -/
  | pause (htx : s.eng.isTransmitting = true) (h0 : 0 ≤ s.eng.tickCounter.toInt + 1)
      (hle : (s.eng.cfg.symbolTicks.toNat : Int) ≤ s.eng.tickCounter.toInt + 1)
      (hnotLast : s.eng.symbolIndex.val + 1 ≠ nsym s.eng.cfg.alphabet)
      (hp : s.eng.cfg.alphabet = .chirp ∧ s.eng.cfg.pauseTicks.toNat > 0) :
      AdvArm s (respond .ok TickOutcome.symbolBoundary.code
        (setPosition (bump s.freeCount 0 s.eng.symbolIndex) (-(s.eng.cfg.pauseTicks.toNat : Int))
          (command 0 s)))
  /-- Arm F: a symbol is over and the next begins at once. -/
  | next (htx : s.eng.isTransmitting = true) (h0 : 0 ≤ s.eng.tickCounter.toInt + 1)
      (hle : (s.eng.cfg.symbolTicks.toNat : Int) ≤ s.eng.tickCounter.toInt + 1)
      (hnotLast : s.eng.symbolIndex.val + 1 ≠ nsym s.eng.cfg.alphabet)
      (hp : ¬ (s.eng.cfg.alphabet = .chirp ∧ s.eng.cfg.pauseTicks.toNat > 0)) :
      AdvArm s (respond .ok TickOutcome.symbolBoundary.code
        (command
          (plan s.eng.cfg (symbolAt s.freeCount s.eng (bump s.freeCount 0 s.eng.symbolIndex).val) 0)
          (setPosition (bump s.freeCount 0 s.eng.symbolIndex) 0 s)))

/-- What ADV leaves by an arm. -/
theorem AdvArm.execAdv_eq {s t : State.Of n} (h : AdvArm s t) : execAdv s = .next t := by
  cases h with
  | idle htx => exact execAdv_idle s htx
  | pausing htx hneg => exact execAdv_pause s htx hneg
  | inside htx h0 hlt => exact execAdv_inside s htx h0 hlt
  | complete htx h0 hle hlast => rw [execAdv_boundary s htx h0 hle, advBoundary_complete s hlast]
  | pause htx h0 hle hnotLast hp => rw [execAdv_boundary s htx h0 hle, advBoundary_pause s hnotLast hp]
  | next htx h0 hle hnotLast hp => rw [execAdv_boundary s htx h0 hle, advBoundary_next s hnotLast hp]

/-- ADV takes one of its arms in every state. -/
theorem exists_advArm (s : State.Of n) : ∃ t, AdvArm s t := by
  by_cases htx : s.eng.isTransmitting = true
  · by_cases hneg : s.eng.tickCounter.toInt + 1 < 0
    · exact ⟨_, .pausing htx hneg⟩
    · have h0 := not_lt.mp hneg
      by_cases hlt : s.eng.tickCounter.toInt + 1 < s.eng.cfg.symbolTicks.toNat
      · exact ⟨_, .inside htx h0 hlt⟩
      · have hle := not_lt.mp hlt
        by_cases hlast : s.eng.symbolIndex.val + 1 = nsym s.eng.cfg.alphabet
        · exact ⟨_, .complete htx h0 hle hlast⟩
        · by_cases hp : s.eng.cfg.alphabet = .chirp ∧ s.eng.cfg.pauseTicks.toNat > 0
          · exact ⟨_, .pause htx h0 hle hlast hp⟩
          · exact ⟨_, .next htx h0 hle hlast hp⟩
  · exact ⟨_, .idle (by simpa using htx)⟩

/-- ADV is an engine command in each of its arms. -/
theorem AdvArm.ran {s t : State.Of n} (h : AdvArm s t) : ∃ v, EngineRan v s t := by
  cases h with
  | idle => exact ⟨_, (EngineMoved.refl s).respond _⟩
  | pausing => exact ⟨_, ((EngineMoved.refl s).setPosition _ _).respond _⟩
  | inside => exact ⟨_, (EngineMoved.command_setPosition _ _ _ s).respond _⟩
  | complete => exact ⟨_, (EngineMoved.command 0 s).clearTx.respond _⟩
  | pause => exact ⟨_, ((EngineMoved.command 0 s).setPosition _ _).respond _⟩
  | next => exact ⟨_, (EngineMoved.command_setPosition _ _ _ s).respond _⟩

/-- ADV keeps the configuration. -/
theorem AdvArm.keepsCfg {s t : State.Of n} (h : AdvArm s t) : KeepsCfg s t := by
  cases h with
  | idle | pausing => exact ⟨rfl, rfl⟩
  | inside | complete | pause | next => simp [KeepsCfg]

/-! ### BTICK (43_broadcaster.md R176) -/

/-- From `s` to `t` one BTICK ran: nothing was dispatched out of range, the broadcaster ticked, its events
and the mask of active channels were presented, and the rest is as it was. -/
structure BtickRan (s t : State.Of n) : Prop where
  inRange : s.bc.dispatches = true → s.bcParams.inFreqRange = true
  params : KeepsParams s t
  engine : KeepsEngine s t
  beacon : KeepsBeacon s t
  broadcaster : t.bc = s.bc.ticked s.bcParams s.freeCount
  events : Emits s t (s.bc.tickEvents s.bcParams s.freeCount)
  answer : Answers s t .ok (activeMask t.bc)

theorem execBtick_ran (s : State.Of n) (h : s.bc.dispatches = true → s.bcParams.inFreqRange = true) :
    ∃ t, execBtick s = .next t ∧ BtickRan s t :=
  ⟨_, execBtick_next s h, h, rfl, rfl, rfl, rfl, rfl, rfl, rfl⟩

theorem btickRan_of_next {s t : State.Of n} (h : execBtick s = .next t) : BtickRan s t :=
  of_next (execBtick_ran s (execBtick_inv h).1) h

/-! ### Every command -/

/-- What a command of the row `op` that runs can do. -/
inductive CommandRan (op : Op) (s t : State.Of n) : Prop
  /-- An error status is answered and nothing else happens. -/
  | error (st : Status) (hst : st ≠ .ok) (hxmit : st = .busy ∨ st = .inert → op = .xmit)
      (h : OnlyAnswersError st s t)
  /-- A value is read. -/
  | read (hop : op ∈ [Op.pget, .qtx]) (v : Half) (units : KeepsUnits s t) (events : Emits s t [])
      (answer : Answers s t .ok v)
  /-- A parameter register is written. -/
  | pset (hop : op = .pset) (engine : KeepsEngine s t) (broadcaster : KeepsBroadcaster s t)
      (beacon : KeepsBeacon s t) (events : Emits s t []) (answer : Answers s t .ok 0)
  /-- The engine moves; only CREATE and DESTROY change its configuration. -/
  | engine (hop : op ∈ [Op.create, .xmit, .adv, .stop, .destroy]) (v : Half) (h : EngineRan v s t)
      (hcfg : op ≠ .create → op ≠ .destroy → KeepsCfg s t)
  /-- The broadcaster latches a message or a request; only BMSG changes the message. -/
  | latch (hop : op ∈ [Op.bmsg, .breq]) (params : KeepsParams s t) (engine : KeepsEngine s t)
      (beacon : KeepsBeacon s t) (message : op ≠ .bmsg → t.bc.message = s.bc.message)
      (channels : t.bc.ch = s.bc.ch) (events : Emits s t []) (answer : Answers s t .ok 0)
  /-- The broadcaster ticks. -/
  | btick (hop : op = .btick) (h : BtickRan s t)
  /-- The beacon latches a request. -/
  | ireq (hop : op = .ireq) (params : KeepsParams s t) (engine : KeepsEngine s t)
      (broadcaster : KeepsBroadcaster s t) (beacon : t.beacon = { s.beacon with req := true })
      (events : Emits s t []) (answer : Answers s t .ok 0)
  /-- The beacon ticks. -/
  | itick (hop : op = .itick) (h : ItickRan s t)

theorem execPset_ran (idx : Byte) (value : Half) (s : State.Of n) :
    ∃ t, execPset idx value s = .next t ∧ CommandRan .pset s t := by
  by_cases hillegal : PsetIllegal n idx value
  · exact ⟨_, execPset_illegal s hillegal,
      .error .illegal (by decide) (by simp) (onlyAnswersError_answerError .illegal s)⟩
  · have hidx : idx.toNat < Config.nparam := Nat.lt_of_not_le fun h => hillegal (.inl h)
    obtain ⟨-, heng, hbc, hbeacon⟩ := keepsUnits_respond .ok 0 (writeParam ⟨idx.toNat, hidx⟩ value s)
    exact ⟨_, execPset_legal s hidx hillegal,
      .pset rfl heng hbc hbeacon (emits_nil_respond .ok 0 _) (answers_respond .ok 0 _)⟩

theorem execPget_ran (idx : Byte) (s : State.Of n) :
    ∃ t, execPget idx s = .next t ∧ CommandRan .pget s t := by
  obtain hidx | hidx := Nat.lt_or_ge idx.toNat Config.nparam
  · exact ⟨_, execPget_register s hidx, .read (by decide) _ (keepsUnits_respond _ _ s)
      (emits_nil_respond _ _ s) (answers_respond _ _ s)⟩
  · exact ⟨_, execPget_reserved s hidx,
      .error .illegal (by decide) (by simp) (onlyAnswersError_answerError .illegal s)⟩

theorem execCreate_ran (s : State.Of n) (h : s.shadowCfg.wfEng = true) :
    ∃ t, execCreate s = .next t ∧ CommandRan .create s t :=
  ⟨_, execCreate_wf s h, .engine (by decide) 0 ((created_moved s).respond 0) fun h => absurd rfl h⟩

theorem execXmit_ran (b : Byte) (s : State.Of n) :
    ∃ t, execXmit b s = .next t ∧ CommandRan .xmit s t := by
  cases hexists : s.eng.existsBit with
  | false =>
    exact ⟨_, execXmit_inert b s hexists,
      .error .inert (by decide) (fun _ => rfl) (onlyAnswersError_answerError .inert s)⟩
  | true =>
    cases htx : s.eng.isTransmitting with
    | true =>
      exact ⟨_, execXmit_busy b s hexists htx,
        .error .busy (by decide) (fun _ => rfl) (onlyAnswersError_answerError .busy s)⟩
    | false =>
      exact ⟨_, execXmit_idle b s hexists htx, .engine (by decide) 0 ((started_moved b s).respond 0)
        fun _ _ => by simp [KeepsCfg, started, planned]⟩

/-- Every command but CREATE outside `WF_ENG` and a BTICK that dispatches out of range runs. -/
theorem execFor_ran (p : Config.Params) (i : Instr) (s : State.Of p.nch)
    (hcreate : i = .create → s.shadowCfg.wfEng = true)
    (hbtick : i = .btick → s.bc.dispatches = true → s.bcParams.inFreqRange = true) :
    ∃ t, execFor p i s = .next t ∧ CommandRan i.op s t := by
  cases i with
  | pset idx value => exact execPset_ran idx value s
  | pget idx => exact execPget_ran idx s
  | create => exact execCreate_ran s (hcreate rfl)
  | xmit b => exact execXmit_ran b s
  | adv =>
    obtain ⟨t, harm⟩ := exists_advArm s
    obtain ⟨v, hran⟩ := harm.ran
    exact ⟨t, harm.execAdv_eq, .engine (by decide) v hran fun _ _ => harm.keepsCfg⟩
  | qtx =>
    exact ⟨_, rfl, .read (by decide) _ (keepsUnits_respond _ _ s) (emits_nil_respond _ _ s)
      (answers_respond _ _ s)⟩
  | stop =>
    exact ⟨_, execStop_eq s, .engine (by decide) _ ((EngineMoved.command 0 s).clearTx.respond _)
      fun _ _ => by simp [KeepsCfg]⟩
  | destroy =>
    exact ⟨_, execDestroy_eq s, .engine (by decide) 0 ((destroyed_moved s).respond 0)
      fun _ h => absurd rfl h⟩
  | bmsg b =>
    exact ⟨_, rfl, .latch (by simp [Instr.op]) rfl rfl rfl (fun h => absurd rfl h) rfl
      (emits_nil_respond _ _ _) (answers_respond _ _ _)⟩
  | breq =>
    exact ⟨_, rfl, .latch (by decide) rfl rfl rfl (fun _ => rfl) rfl
      (emits_nil_respond _ _ _) (answers_respond _ _ _)⟩
  | btick =>
    obtain ⟨t, ht, hran⟩ := execBtick_ran s (hbtick rfl)
    exact ⟨t, ht, .btick rfl hran⟩
  | ireq =>
    exact ⟨_, rfl, .ireq rfl rfl rfl rfl rfl (emits_nil_respond _ _ _) (answers_respond _ _ _)⟩
  | itick =>
    obtain ⟨t, ht, hran⟩ := execItick_ran s
    exact ⟨t, ht, .itick rfl hran⟩

/-- A command that runs is no CREATE outside `WF_ENG` (R131). -/
theorem wfEng_of_execCreate_next {s t : State.Of n} (h : execCreate s = .next t) :
    s.shadowCfg.wfEng = true := by
  by_contra hwf
  rw [execCreate_outside s hwf] at h
  cases h

/-- A command that runs did what its row says. -/
theorem commandRan_of_next {p : Config.Params} {i : Instr} {s t : State.Of p.nch}
    (h : execFor p i s = .next t) : CommandRan i.op s t := by
  refine of_next (execFor_ran p i s ?_ ?_) h
  · rintro rfl
    exact wfEng_of_execCreate_next h
  · rintro rfl
    exact (execBtick_inv h).1

end Sys2Proof.Machine
end

section
/-! PROOF. The machine invariant holds after reset and every step keeps it, for every number of channels
(10_state.md R30, R33, R34; 40_parameters.md R112). -/

namespace Sys2Proof.Machine

variable {n : Nat}

/-! ### What a command leaves alone, unit by unit -/

namespace CommandRan

variable {op : Op} {s t : State.Of n}

theorem keepsParams (h : CommandRan op s t) (hop : op ≠ .pset) : KeepsParams s t := by
  cases h with
  | error _ _ _ h => exact h.units.params
  | read _ _ units => exact units.params
  | pset hpset => exact absurd hpset hop
  | engine _ _ h => exact h.params
  | latch _ params => exact params
  | btick _ h => exact h.params
  | ireq _ params => exact params
  | itick _ h => exact h.params

theorem keepsEngine (h : CommandRan op s t) (hop : op ∉ [Op.create, .xmit, .adv, .stop, .destroy]) :
    KeepsEngine s t := by
  cases h with
  | error _ _ _ h => exact h.units.engine
  | read _ _ units => exact units.engine
  | pset _ engine => exact engine
  | engine hengine => exact absurd hengine hop
  | latch _ _ engine => exact engine
  | btick _ h => exact h.engine
  | ireq _ _ engine => exact engine
  | itick _ h => exact h.engine

theorem keepsBroadcaster (h : CommandRan op s t) (hop : op ∉ [Op.bmsg, .breq, .btick]) :
    KeepsBroadcaster s t := by
  cases h with
  | error _ _ _ h => exact h.units.broadcaster
  | read _ _ units => exact units.broadcaster
  | pset _ _ broadcaster => exact broadcaster
  | engine _ _ h => exact h.broadcaster
  | latch hlatch =>
    obtain rfl | rfl : op = .bmsg ∨ op = .breq := by simpa using hlatch
    · exact absurd (by decide) hop
    · exact absurd (by decide) hop
  | btick hbtick => exact absurd (by simp [hbtick]) hop
  | ireq _ _ _ broadcaster => exact broadcaster
  | itick _ h => exact h.broadcaster

theorem keepsBeacon (h : CommandRan op s t) (hop : op ∉ [Op.ireq, .itick]) : KeepsBeacon s t := by
  cases h with
  | error _ _ _ h => exact h.units.beacon
  | read _ _ units => exact units.beacon
  | pset _ _ _ beacon => exact beacon
  | engine _ _ h => exact h.beacon
  | latch _ _ _ beacon => exact beacon
  | btick _ h => exact h.beacon
  | ireq hireq => exact absurd (by simp [hireq]) hop
  | itick hitick => exact absurd (by simp [hitick]) hop

end CommandRan

/-! ### The engine (R30) -/

theorem execCreate_ok {s t : State.Of n} (h : execCreate s = .next t) : EngineOk t.eng := by
  have hwf := wfEng_of_execCreate_next h
  rw [execCreate_wf s hwf] at h
  cases h
  exact .ofClear _ nofun (fun _ => hwf) (fun _ => rfl) rfl (clearTx_command_zero_currentFreq s) rfl rfl rfl

theorem execStop_ok {s t : State.Of n} (he : EngineOk s.eng) (h : execStop s = .next t) :
    EngineOk t.eng := by
  rw [execStop_eq] at h
  cases h
  apply EngineOk.ofClear
  · simpa using he.inert
  · simpa using he.wellFormed
  · simpa using he.slope
  · rfl
  · exact clearTx_command_zero_currentFreq s
  · rfl
  · rfl
  · rfl

theorem execDestroy_ok {s t : State.Of n} (h : execDestroy s = .next t) : EngineOk t.eng := by
  rw [execDestroy_eq] at h
  cases h
  exact .ofClear _ (fun _ => rfl) nofun nofun rfl (clearTx_command_zero_currentFreq s) rfl rfl rfl

/-- Every command that runs keeps the engine invariants, whatever the other units hold. -/
theorem execFor_engineOk {p : Config.Params} {i : Instr} {s t : State.Of p.nch} (he : EngineOk s.eng)
    (h : execFor p i s = .next t) : EngineOk t.eng := by
  have hkeep := (commandRan_of_next h).keepsEngine
  cases i with
  | create => exact execCreate_ok h
  | xmit b => exact execXmit_ok b s t he h
  | adv => exact execAdv_ok s t he h
  | stop => exact execStop_ok he h
  | destroy => exact execDestroy_ok h
  | pset | pget | qtx | bmsg | breq | btick | ireq | itick =>
    rw [KeepsEngine] at hkeep
    rw [hkeep (by simp [Instr.op])]
    exact he

/-! ### The broadcaster (R33) -/

/-- A tick keeps lockstep and the channel invariants: every channel does the same. -/
theorem ticked_ok {b : Bc n} {q : BcParams} (count : Nat) (hb : BroadcasterOk b)
    (hq : b.dispatches = true → q.inFreqRange = true) : BroadcasterOk (b.ticked q count) := by
  have hrange (i : Fin n) (hreq : b.req = true) (ha : b.ch[i].active = false) :
      q.inFreqRange = true := hq ((dispatches_iff b).mpr ⟨hreq, i, ha⟩)
  constructor
  · intro i j
    rw [ticked_ch, ticked_ch, Bc.part, Bc.part, hb.lockstep i j]
    exact channelTick_slot q b.req b.message count i j b.ch[j] (hb.channels j) (hrange j)
  · intro i
    rw [ticked_ch, Bc.part]
    exact channelTick_ok q b.req b.message count i b.ch[i] (hb.channels i) (hrange i)

/-- The broadcaster invariants speak of the channels alone. -/
theorem BroadcasterOk.of_ch {b b' : Bc n} (hb : BroadcasterOk b) (h : b'.ch = b.ch) :
    BroadcasterOk b' :=
  ⟨fun i j => h ▸ hb.lockstep i j, fun i => h ▸ hb.channels i⟩

theorem CommandRan.broadcasterOk {op : Op} {s t : State.Of n} (h : CommandRan op s t)
    (hb : BroadcasterOk s.bc) : BroadcasterOk t.bc := by
  cases h with
  | error _ _ _ h => exact hb.of_ch (congrArg Bc.ch h.units.broadcaster)
  | read _ _ units => exact hb.of_ch (congrArg Bc.ch units.broadcaster)
  | pset _ _ broadcaster => exact hb.of_ch (congrArg Bc.ch broadcaster)
  | engine _ _ h => exact hb.of_ch (congrArg Bc.ch h.broadcaster)
  | latch _ _ _ _ _ channels => exact hb.of_ch channels
  | btick _ h => exact h.broadcaster ▸ ticked_ok _ hb h.inRange
  | ireq _ _ _ broadcaster => exact hb.of_ch (congrArg Bc.ch broadcaster)
  | itick _ h => exact hb.of_ch (congrArg Bc.ch h.broadcaster)

/-! ### The beacon (R34) -/

theorem beaconOk_ticked {b : Beacon n} (mask ticks : Half) (hb : BeaconOk b) :
    BeaconOk (b.ticked mask ticks) := by
  cases ha : b.idActive with
  | true =>
    obtain hlt | hle := Nat.lt_or_ge (b.idCounter.toNat + 1) ticks.toNat
    · intro hdormant
      exact absurd hdormant (by simp [(ticked_hold mask ticks b ha hlt).1])
    · rw [ticked_over mask ticks b ha hle]
      exact fun _ => ⟨rfl, rfl⟩
  | false =>
    cases hr : b.req with
    | true =>
      rw [ticked_start mask ticks b ha hr]
      nofun
    | false => rwa [ticked_dormant mask ticks b ha hr]

theorem CommandRan.beaconOk {op : Op} {s t : State.Of n} (h : CommandRan op s t)
    (hb : BeaconOk s.beacon) : BeaconOk t.beacon := by
  cases h with
  | error _ _ _ h => rwa [h.units.beacon]
  | read _ _ units => rwa [units.beacon]
  | pset _ _ _ beacon => rwa [beacon]
  | engine _ _ h => rwa [h.beacon]
  | latch _ _ _ beacon => rwa [beacon]
  | btick _ h => rwa [h.beacon]
  | ireq _ _ _ _ beacon => exact beacon ▸ hb
  | itick _ h => exact h.beacon ▸ beaconOk_ticked _ _ hb

/-! ### The parameter file (R112) -/

/-- `writeParam_get` with the register read named by its number. -/
theorem writeParam_getElem (i : Fin Config.nparam) (v : Half) (s : State.Of n) (k : Nat)
    (hk : k < Config.nparam) : (writeParam i v s).P[k] = if k = i.val then v else s.P[k] := by
  simpa only [Fin.getElem_fin, Fin.ext_iff] using writeParam_get i ⟨k, hk⟩ v s

theorem execPset_legalParams {idx : Byte} {value : Half} {s t : State.Of n} (hP : ParamsLegal n s.P)
    (h : execPset idx value s = .next t) : ParamsLegal n t.P := by
  by_cases hillegal : PsetIllegal n idx value
  · rw [execPset_illegal s hillegal] at h
    cases h
    exact hP
  · have hidx : idx.toNat < Config.nparam := Nat.lt_of_not_le fun h => hillegal (.inl h)
    rw [execPset_legal s hidx hillegal] at h
    cases h
    obtain ⟨-, halphabet, hmask⟩ := by simpa only [PsetIllegal, not_or] using hillegal
    obtain ⟨hP4, hP10⟩ := hP
    constructor
    · rw [respond_P, writeParam_getElem]
      dsimp only
      split <;> omega
    · rw [respond_P, writeParam_getElem]
      dsimp only
      split <;> omega

theorem execFor_paramsLegal {p : Config.Params} {i : Instr} {s t : State.Of p.nch}
    (hP : ParamsLegal p.nch s.P) (h : execFor p i s = .next t) : ParamsLegal p.nch t.P := by
  have hkeep := (commandRan_of_next h).keepsParams
  rw [KeepsParams] at hkeep
  cases i with
  | pset idx value => exact execPset_legalParams hP h
  | pget | create | xmit | adv | qtx | stop | destroy | bmsg | breq | btick | ireq | itick =>
    rwa [hkeep nofun]

/-! ### The machine -/

/-- Every command that runs keeps the machine invariant. -/
theorem execFor_machineOk {p : Config.Params} {i : Instr} {s t : State.Of p.nch} (hs : MachineOk s)
    (h : execFor p i s = .next t) : MachineOk t :=
  have hran := commandRan_of_next h
  ⟨execFor_paramsLegal hs.params h, execFor_engineOk hs.engine h, hran.broadcasterOk hs.broadcaster,
    hran.beaconOk hs.beacon⟩

/-- The machine invariant speaks of the units alone. -/
theorem MachineOk.of_keepsUnits {s t : State.Of n} (hs : MachineOk s) (h : KeepsUnits s t) :
    MachineOk t := by
  obtain ⟨hP, heng, hbc, hbeacon⟩ := h
  obtain ⟨params, engine, broadcaster, beacon⟩ := hs
  exact ⟨by rwa [hP], by rwa [heng], by rwa [hbc], by rwa [hbeacon]⟩

theorem channelOk_zero : ChannelOk Channel.zero where
  dormant := fun _ => rfl
  paused := nofun
  ramping := nofun
  onGrid := nofun
  wholeSteps := nofun
  ranges := by decide
  pauseCount := by decide

theorem machineOk_reset (n : Nat) : MachineOk (State.Of.reset n) where
  params := ⟨by simp [State.Of.reset], by simp [State.Of.reset]⟩
  engine := .ofClear _ (fun _ => rfl) nofun nofun rfl rfl rfl rfl rfl
  broadcaster :=
    { lockstep := fun i j => (Bc.reset_ch_get i).trans (Bc.reset_ch_get j).symm
      channels := fun i => Bc.reset_ch_get i ▸ channelOk_zero }
  beacon := fun _ => ⟨rfl, rfl⟩

theorem acceptWith_machineOk {p : Config.Params} {w : Word} {s t : State.Of p.nch} (hs : MachineOk s)
    (h : acceptWith p (execFor p) w s = .next t) : MachineOk t := by
  cases hd : decodeFor p w with
  | ok i =>
    rw [acceptWith_ok _ s hd] at h
    exact execFor_machineOk hs h
  | error e =>
    rw [acceptWith_error _ s hd] at h
    cases h
    exact hs.of_keepsUnits (onlyAnswersError_answerError .illegal s).units

/-- Whatever the abandoned command, a reset during it leaves the units of the reset state (R230). -/
theorem keepsUnits_reset_abandon (s : State.Of n) (o : Host.Outcome (State.Of n) Fault Refusal) :
    KeepsUnits (State.Of.reset n) (abandon s o) := keepsUnits_reset_resetUnits s

theorem stepFor_machineOk {p : Config.Params} {s t : State.Of p.nch} (hs : MachineOk s)
    (h : stepFor p s = .next t) : MachineOk t := by
  rw [stepFor] at h
  cases hinput : s.port.input with
  | nil =>
    rw [stepWith_still _ s hinput] at h
    cases h
    exact hs
  | cons x rest =>
    rw [stepWith_input _ s hinput] at h
    have hpop : MachineOk (popInput rest s) := hs.of_keepsUnits ⟨rfl, rfl, rfl, rfl⟩
    cases x with
    | command w => exact acceptWith_machineOk hpop h
    | reset =>
      cases h
      exact (machineOk_reset p.nch).of_keepsUnits (keepsUnits_reset_resetUnits _)
    | resetDuring w =>
      cases h
      exact (machineOk_reset p.nch).of_keepsUnits (keepsUnits_reset_abandon _ _)

end Sys2Proof.Machine

namespace Sys2Proof.Proofs
open Sys2Proof.Machine

/-- Settles O60: the reset state has the invariant, and a step is nothing, a reset, an ILLEGAL answer or a
command, each of which keeps it, unit by unit. -/
theorem stepKeepsInvariantsForAnyParameters : Obligations.StepKeepsInvariantsForAnyParameters :=
  fun p => ⟨machineOk_reset p.nch, fun _ _ => stepFor_machineOk⟩

/-- Settles O53: the step with the values of R7. -/
theorem stepKeepsInvariants : Obligations.StepKeepsInvariants :=
  fun s _ hs h => stepFor_machineOk (p := Config.params) hs ((congrFun stepFor_params s).trans h)

/-- Settles O52: the reset state with four channels. -/
theorem resetMeetsInvariants : Obligations.ResetMeetsInvariants := machineOk_reset Config.nch

/-- Settles O54: the engine's part of the invariant, with no premise on the other units. -/
theorem commandsKeepEngineInvariants : Obligations.CommandsKeepEngineInvariants :=
  fun i s _ he h => execFor_engineOk (p := Config.params) he ((exec_eq_execFor i s).symm.trans h)

/-- Settles O55: a channel's part of a tick depends on its fields and not on its index. -/
theorem lockstepForAnyChannelCount : Obligations.LockstepForAnyChannelCount :=
  fun _ _ _ count => ticked_ok count

end Sys2Proof.Proofs
end

section
/-! PROOF. The rules of the whole machine: the step, the one response, what a non-OK answer leaves, the two
refusals, the units, the events, and a reset during a command (00_scope.md R12, R13; 30_encoding.md R83;
60_exceptions.md R205, R209; 70_reset_and_hazards.md R230). -/

namespace Sys2Proof.Machine

variable {n : Nat}

/-! ### The one response (30_encoding.md R83) -/

theorem Status.code_injective {st st' : Status} (h : st.code = st'.code) : st = st' := by
  revert h
  cases st <;> cases st' <;> decide

/-- A response names its status. -/
theorem Answers.status_unique {s t : State.Of n} {st st' : Status} {v v' : Half}
    (h : Answers s t st v) (h' : Answers s t st' v') : st = st' := by
  have hword : respWord st v = respWord st' v' := by
    simpa using List.append_cancel_left (h.1.symm.trans h'.1)
  have hcode := congrArg respStatus hword
  rw [respStatus_respWord, respStatus_respWord] at hcode
  exact Status.code_injective hcode

theorem KeepsEngine.keepsCfg {s t : State.Of n} (h : KeepsEngine s t) : KeepsCfg s t :=
  ⟨congrArg Eng.cfg h, congrArg Eng.existsBit h⟩

/-- An engine left alone changed no commanded frequency. -/
theorem KeepsEngine.emits_engineChange {s t : State.Of n} (h : KeepsEngine s t)
    (hevents : Emits s t []) :
    Emits s t (changeEvent .eng 0 s.eng.currentFreq t.eng.currentFreq) := by
  rwa [show t.eng = s.eng from h, changeEvent_self]

namespace CommandRan

variable {op : Op} {s t : State.Of n}

/-- A command that runs answers one status; any but OK comes with value 0 and changes nothing, and BUSY and
INERT come from XMIT. -/
theorem answered (h : CommandRan op s t) :
    (∃ v, Answers s t .ok v) ∨
    ∃ st, st ≠ .ok ∧ (st = .busy ∨ st = .inert → op = .xmit) ∧ OnlyAnswersError st s t := by
  cases h with
  | error st hst hxmit h => exact .inr ⟨st, hst, hxmit, h⟩
  | read _ v _ _ answer => exact .inl ⟨v, answer⟩
  | pset _ _ _ _ _ answer => exact .inl ⟨0, answer⟩
  | engine _ v h => exact .inl ⟨v, h.answer⟩
  | latch _ _ _ _ _ _ _ answer => exact .inl ⟨0, answer⟩
  | btick _ h => exact .inl ⟨_, h.answer⟩
  | ireq _ _ _ _ _ _ answer => exact .inl ⟨0, answer⟩
  | itick _ h => exact .inl ⟨_, h.answer⟩

/-- A command whose status is not OK did nothing but answer it. -/
theorem onlyAnswersError (h : CommandRan op s t) {st : Status} {v : Half} (ha : Answers s t st v)
    (hst : st ≠ .ok) : OnlyAnswersError st s t := by
  obtain ⟨v', hok⟩ | ⟨st', -, -, herror⟩ := h.answered
  · exact absurd (ha.status_unique hok) hst
  · rwa [ha.status_unique herror.answer]

/-! ### The live configuration and the shared message (10_state.md R24, R31) -/

theorem keepsCfg (h : CommandRan op s t) (hcreate : op ≠ .create) (hdestroy : op ≠ .destroy) :
    KeepsCfg s t := by
  cases h with
  | error _ _ _ h => exact h.units.engine.keepsCfg
  | read _ _ units => exact units.engine.keepsCfg
  | pset _ engine => exact engine.keepsCfg
  | engine _ _ _ hcfg => exact hcfg hcreate hdestroy
  | latch _ _ engine => exact engine.keepsCfg
  | btick _ h => exact h.engine.keepsCfg
  | ireq _ _ engine => exact engine.keepsCfg
  | itick _ h => exact h.engine.keepsCfg

theorem keepsMessage (h : CommandRan op s t) (hop : op ≠ .bmsg) : t.bc.message = s.bc.message := by
  cases h with
  | error _ _ _ h => exact congrArg Bc.message h.units.broadcaster
  | read _ _ units => exact congrArg Bc.message units.broadcaster
  | pset _ _ broadcaster => exact congrArg Bc.message broadcaster
  | engine _ _ h => exact congrArg Bc.message h.broadcaster
  | latch _ _ _ _ message => exact message hop
  | btick _ h => rw [h.broadcaster, ticked_message]
  | ireq _ _ _ broadcaster => exact congrArg Bc.message broadcaster
  | itick _ h => exact congrArg Bc.message h.broadcaster

/-! ### Events (42_tone_engine.md R132, 43_broadcaster.md R173) -/

/-- Each kind of command that runs adds events to the record and takes none away (00_scope.md R12). -/
theorem emits (h : CommandRan op s t) : ∃ es, Emits s t es := by
  cases h with
  | error _ _ _ h => exact ⟨_, h.events⟩
  | read _ _ _ events => exact ⟨_, events⟩
  | pset _ _ _ _ events => exact ⟨_, events⟩
  | engine _ _ h => exact ⟨_, h.events⟩
  | latch _ _ _ _ _ _ events => exact ⟨_, events⟩
  | btick _ h => exact ⟨_, h.events⟩
  | ireq _ _ _ _ _ events => exact ⟨_, events⟩
  | itick _ h => exact ⟨_, h.events⟩

/-- An engine command emits the change of the commanded frequency, where it answers an error none. -/
theorem emits_engineChange (h : CommandRan op s t)
    (hop : op ∈ [Op.create, .xmit, .adv, .qtx, .stop, .destroy]) :
    Emits s t (changeEvent .eng 0 s.eng.currentFreq t.eng.currentFreq) := by
  cases h with
  | error _ _ _ h => exact h.units.engine.emits_engineChange h.events
  | read _ _ units events => exact units.engine.emits_engineChange events
  | engine _ _ h => exact h.events
  | latch _ _ engine _ _ _ events => exact engine.emits_engineChange events
  | pset hpset => exact absurd hop (by simp [hpset])
  | btick hbtick => exact absurd hop (by simp [hbtick])
  | ireq hireq => exact absurd hop (by simp [hireq])
  | itick hitick => exact absurd hop (by simp [hitick])

/-- The commands that set, read or latch emit nothing. -/
theorem emits_nil (h : CommandRan op s t) (hop : op ∈ [Op.pset, .pget, .qtx, .bmsg, .breq, .ireq]) :
    Emits s t [] := by
  cases h with
  | error _ _ _ h => exact h.events
  | read _ _ _ events => exact events
  | pset _ _ _ _ events => exact events
  | latch _ _ _ _ _ _ events => exact events
  | ireq _ _ _ _ _ events => exact events
  | engine hengine => exact absurd hop (by revert hengine; cases op <;> decide)
  | btick hbtick => exact absurd hop (by simp [hbtick])
  | itick hitick => exact absurd hop (by simp [hitick])

end CommandRan

/-- The events of a tick are the changes of the channels' commanded frequencies, in ascending order. -/
theorem tickEvents_eq (q : BcParams) (count : Nat) (b : Bc n) :
    b.tickEvents q count = (List.finRange n).flatMap fun k =>
      changeEvent .bc (BitVec.ofNat 4 k.val) b.ch[k].currentFreq (b.ticked q count).ch[k].currentFreq := by
  rw [Bc.tickEvents]
  congr 1
  funext k
  rw [ticked_ch, Bc.part, channelTick_events]

theorem BtickRan.emits_channelChanges {s t : State.Of n} (h : BtickRan s t) :
    Emits s t ((List.finRange n).flatMap fun k =>
      changeEvent .bc (BitVec.ofNat 4 k.val) s.bc.ch[k].currentFreq t.bc.ch[k].currentFreq) := by
  have hevents := h.events
  rwa [tickEvents_eq, ← h.broadcaster] at hevents

/-! ### A reset during a command (70_reset_and_hazards.md R230) -/

/-- An accepted word that runs adds events to the record. -/
theorem acceptWith_emits {p : Config.Params} {w : Word} {s t : State.Of p.nch}
    (h : acceptWith p (execFor p) w s = .next t) : ∃ es, Emits s t es := by
  cases hd : decodeFor p w with
  | ok i =>
    rw [acceptWith_ok _ s hd] at h
    exact (commandRan_of_next h).emits
  | error e =>
    rw [acceptWith_error _ s hd] at h
    cases h
    exact ⟨_, (onlyAnswersError_answerError .illegal s).events⟩

/-- Of a command that would have emitted `es` an abandoned one has emitted a first part. -/
theorem emits_abandon {s u : State.Of n} {es : List ActEvent} (h : Emits s u es) :
    Emits s (abandon s (.next u)) (es.take (Config.freeEventCount s.freeCount)) := by
  rw [Emits] at h
  simp [Emits, abandon, abandonedEvents, h]

/-! ### Commands that repeat (20_memory.md R65) -/

/-- From `t` to `u` nothing changed and nothing was emitted. -/
def Still (t u : State.Of n) : Prop := KeepsUnits t u ∧ Emits t u []

theorem still_respond (st : Status) (v : Half) (s : State.Of n) : Still s (respond st v s) :=
  ⟨keepsUnits_respond st v s, emits_nil_respond st v s⟩

/-- A register written with the value it holds keeps the file. -/
theorem execPset_twice {idx : Byte} {value : Half} {s t u : State.Of n}
    (ht : execPset idx value s = .next t) (hu : execPset idx value t = .next u) : Still t u := by
  by_cases hillegal : PsetIllegal n idx value
  · rw [execPset_illegal t hillegal] at hu
    cases hu
    exact still_respond .illegal 0 t
  · have hidx : idx.toNat < Config.nparam := Nat.lt_of_not_le fun h => hillegal (.inl h)
    rw [execPset_legal _ hidx hillegal] at ht hu
    cases ht
    cases hu
    exact ⟨⟨Vector.set_set _ hidx, rfl, rfl, rfl⟩, emits_nil_respond _ _ _⟩

/-- Silence commanded on a silent engine is no command at all (R132). -/
theorem command_zero_of_silent (s : State.Of n) (h : s.eng.currentFreq = 0) : command 0 s = s := by
  simp [command, h]

/-- STOP on a silent and cleared engine answers 0 and changes nothing. -/
theorem execStop_of_clear (t : State.Of n) (hsilent : t.eng.currentFreq = 0) (hclear : clearTx t = t) :
    execStop t = .next (respond .ok 0 t) := by
  have htx : t.eng.isTransmitting = false := hclear ▸ clearTx_isTransmitting t
  rw [execStop_eq, command_zero_of_silent t hsilent, hclear, htx]
  rfl

/-- STOP leaves an engine silent and cleared. -/
theorem execStop_twice {s t : State.Of n} (ht : execStop s = .next t) :
    execStop t = .next (respond .ok 0 t) := by
  rw [execStop_eq] at ht
  cases ht
  exact execStop_of_clear _ (clearTx_command_zero_currentFreq s) rfl

end Sys2Proof.Machine

namespace Sys2Proof.Proofs
open Sys2Proof.Machine

/-- Settles O56: each is the parametrised definition with the record of R7. -/
theorem stepTakesTheParameters : Obligations.StepTakesTheParameters :=
  ⟨params_wf, fun _ => rfl, exec_eq_execFor, fun s => (congrFun stepFor_params s).symm⟩

/-- Settles O8: the step takes the word off the port and accepts it. -/
theorem stepRunsDecodedCommand : Obligations.StepRunsDecodedCommand :=
  ⟨fun s _ _ _ hinput hd => (step_command s hinput).trans (acceptWord_ok _ hd),
    fun s hinput => stepWith_still (p := Config.params) exec s hinput⟩

/-- Settles O10: the units are those of the reset state whatever the command, and a command that would have
run adds events to the record, of which a first part is kept. -/
theorem resetAbandonsCommand : Obligations.ResetAbandonsCommand := by
  intro s w rest hinput
  refine ⟨_, step_resetDuring s hinput,
    (allFieldsZero_reset _).of_keepsUnits (keepsUnits_reset_abandon _ _), rfl, rfl, fun u hu => ?_⟩
  have hu' : acceptWith Config.params (execFor Config.params) w (popInput rest s) = .next u := by
    rw [execFor_params]
    exact hu
  obtain ⟨made, hmade⟩ := acceptWith_emits hu'
  rw [hu]
  exact ⟨made, _, hmade, emits_abandon hmade⟩

/-- Settles O11: `CommandRan.answered`, with the response word taken apart. -/
theorem oneResponsePerCommand : Obligations.OneResponsePerCommand := by
  intro i s t h
  have hran := commandRan_of_next (exec_eq_execFor i s ▸ h)
  obtain ⟨v, hanswer⟩ | ⟨st, hst, hxmit, herror⟩ := hran.answered
  · exact ⟨_, .ok, hanswer.1, hanswer.2, respStatus_respWord _ _, respZero_respWord _ _, by simp,
      by simp⟩
  · exact ⟨_, st, herror.answer.1, herror.answer.2, respStatus_respWord _ _, respZero_respWord _ _,
      fun _ => respValue_respWord _ _, hxmit⟩

/-- Settles O12: a status other than OK is an error answer. -/
theorem nonOkChangesNothing : Obligations.NonOkChangesNothing := by
  intro i s t st v h hanswer hst
  have herror := (commandRan_of_next (exec_eq_execFor i s ▸ h)).onlyAnswersError hanswer hst
  exact ⟨herror.units, herror.events⟩

/-- Settles O13: outside the two refusals every command runs. -/
theorem onlyTwoRefusals : Obligations.OnlyTwoRefusals := by
  intro i s
  by_cases hcreate : i = .create ∧ ¬ s.shadowCfg.wfEng = true
  · obtain ⟨rfl, hwf⟩ := hcreate
    exact .inr (.inl ⟨rfl, by simpa using hwf, execCreate_outside s hwf⟩)
  · by_cases hbtick : i = .btick ∧ s.bc.dispatches = true ∧ s.bcParams.inFreqRange = false
    · obtain ⟨rfl, hdispatch, hrange⟩ := hbtick
      exact .inr (.inr ⟨rfl, hdispatch, hrange, if_pos ⟨hdispatch, hrange⟩⟩)
    · left
      obtain ⟨t, ht, -⟩ := execFor_ran Config.params i s (by tauto)
        (fun hi hdispatch => by simpa [hi, hdispatch] using hbtick)
      exact ⟨t, (exec_eq_execFor i s).trans ht⟩

/-- Settles O14: the frames of `CommandRan`, unit by unit. -/
theorem unitsChangedByTheirOwnCommands : Obligations.UnitsChangedByTheirOwnCommands := by
  intro i s t h
  have hran := commandRan_of_next (exec_eq_execFor i s ▸ h)
  exact ⟨hran.keepsParams, hran.keepsEngine, hran.keepsBroadcaster, hran.keepsBeacon, hran.keepsCfg,
    hran.keepsMessage⟩

/-- Settles O15: the engine's events and a tick's are changes of a commanded frequency. -/
theorem eventsOnlyOnChange : Obligations.EventsOnlyOnChange := by
  intro i s t h
  have hran := commandRan_of_next (exec_eq_execFor i s ▸ h)
  refine ⟨hran.emits_engineChange, fun hop => ?_, hran.emits_nil⟩
  cases i with
  | btick => exact (btickRan_of_next h).emits_channelChanges
  | _ => cases hop

/-- Settles O31: PSET writes what the register holds, BREQ and IREQ set what is set, and STOP finds the engine
silent and cleared. -/
theorem repeatedCommandsChangeNothing : Obligations.RepeatedCommandsChangeNothing := by
  intro i s t u hop ht hu
  cases i with
  | pset idx value =>
    obtain ⟨hunits, hevents⟩ := execPset_twice ht hu
    exact ⟨hunits, hevents, nofun⟩
  | breq | ireq =>
    cases ht
    cases hu
    exact ⟨⟨rfl, rfl, rfl, rfl⟩, emits_nil_respond _ _ _, nofun⟩
  | stop =>
    obtain rfl : respond .ok 0 t = u := by simpa using (execStop_twice ht).symm.trans hu
    exact ⟨keepsUnits_respond _ _ _, emits_nil_respond _ _ _, fun _ => answers_respond _ _ _⟩
  | _ => simp [Instr.op] at hop

/-- Settles O38: a write of one field and an answer. -/
theorem bmsgSetsSharedMessage : Obligations.BmsgSetsSharedMessage :=
  fun _ _ => ⟨_, rfl, rfl, rfl, rfl, rfl, rfl, rfl, emits_nil_respond _ _ _, answers_respond _ _ _⟩

/-- Settles O39: a write of one flag and an answer. -/
theorem breqLatchesRequest : Obligations.BreqLatchesRequest :=
  fun _ => ⟨_, rfl, rfl, rfl, rfl, rfl, rfl, rfl, emits_nil_respond _ _ _, answers_respond _ _ _⟩

/-- Settles O49: a write of one flag and an answer. -/
theorem ireqLatchesRequest : Obligations.IreqLatchesRequest :=
  fun _ => ⟨_, rfl, rfl, rfl, rfl, rfl, emits_nil_respond _ _ _, answers_respond _ _ _⟩

end Sys2Proof.Proofs
end

section
/-! PROOF. The broadcaster: what BTICK answers, when it is refused, and what each arm leaves of a channel
(43_broadcaster.md R171, R173, R176 to R181). -/

namespace Sys2Proof.Machine

variable {n : Nat}

/-! ### The bounds (R171, R172) -/

theorem bottom_eq (q : BcParams) :
    q.bottom = (q.center.toNat : Int) - (q.slope.toNat * q.duration.toNat : Int) / 2 := by
  simp [BcParams.bottom, BcParams.span]

theorem top_eq (q : BcParams) : q.top = q.bottom + (q.slope.toNat * q.duration.toNat : Int) := by
  simp [BcParams.top, BcParams.span]

theorem bottom_le_top (q : BcParams) : q.bottom ≤ q.top := by
  simp [BcParams.top]

theorem inFreqRange_iff (q : BcParams) : q.inFreqRange = true ↔ 0 ≤ q.bottom ∧ q.top ≤ 65535 := by
  simp [BcParams.inFreqRange]

/-! ### The whole tick (R176, R179) -/

/-- BTICK is refused exactly when it would dispatch out of range. -/
theorem execBtick_refused_iff (s : State.Of n) :
    execBtick s = .refused .dispatchOutsideFreqRange ↔
      s.bc.dispatches = true ∧ ¬ s.bcParams.inFreqRange = true := by
  by_cases h : s.bc.dispatches = true → s.bcParams.inFreqRange = true
  · rw [execBtick_next s h]
    exact iff_of_false nofun (by tauto)
  · obtain ⟨hdispatch, hrange⟩ := Classical.not_imp.mp h
    exact iff_of_true (if_pos ⟨hdispatch, by simpa using hrange⟩) ⟨hdispatch, hrange⟩

/-- The request is cleared exactly when the last channel takes it (R179). -/
theorem ticked_req_of_last (q : BcParams) (count : Nat) (b : Bc n) (i : Fin n) (h : i.val + 1 = n) :
    (b.ticked q count).req = (b.req && b.ch[i].active) := by
  rw [Bc.ticked, lastDispatches_of_last q count b i h]
  cases b.req <;> simp

/-- With no request pending a tick leaves none pending. -/
theorem ticked_req_of_not_req (q : BcParams) (count : Nat) {b : Bc n} (h : b.req = false) :
    (b.ticked q count).req = false := by
  rw [Bc.ticked, h, Bool.false_and]

theorem not_dispatches_of_not_req {b : Bc n} (h : b.req = false) : b.dispatches = false := by
  rw [Bc.dispatches, h, Bool.false_and]

/-- What a BTICK leaves of a channel. -/
theorem BtickRan.ch {s t : State.Of n} (h : BtickRan s t) (i : Fin n) :
    t.bc.ch[i] =
      (channelTick s.bcParams s.bc.req s.bc.message s.freeCount i s.bc.ch[i]).ch := by
  rw [h.broadcaster, ticked_ch, Bc.part]

/-! ### The parameters a running channel reads (R178, R236) -/

/-- A channel that does not dispatch reads of `P[5..8]` the pause threshold alone. -/
theorem channelStep_of_pause_eq {q q' : BcParams} {req : Bool} (msg : Byte) (count slot : Nat)
    {c : Channel} (hq : q.pause = q'.pause) (h : ¬ (req = true ∧ c.active = false)) :
    channelStep q req msg count slot c = channelStep q' req msg count slot c := by
  rw [channelStep, channelStep, if_neg h, if_neg h, channelPaused, channelPaused, hq]

theorem part_of_pause_eq {q q' : BcParams} (count : Nat) {b : Bc n} (hq : q.pause = q'.pause)
    (h : b.dispatches = false) : b.part q count = b.part q' count := by
  funext i
  have hno : ¬ (b.req = true ∧ b.ch[i].active = false) := fun hi =>
    Bool.eq_false_iff.mp h ((dispatches_iff b).mpr ⟨hi.1, i, hi.2⟩)
  rw [Bc.part, Bc.part, channelTick, channelTick, channelStep_of_pause_eq _ _ _ hq hno]

theorem ticked_of_pause_eq {q q' : BcParams} (count : Nat) {b : Bc n} (hq : q.pause = q'.pause)
    (h : b.dispatches = false) : b.ticked q count = b.ticked q' count := by
  simp only [Bc.ticked, Bc.lastDispatches, part_of_pause_eq count hq h]

theorem tickEvents_of_pause_eq {q q' : BcParams} (count : Nat) {b : Bc n} (hq : q.pause = q'.pause)
    (h : b.dispatches = false) : b.tickEvents q count = b.tickEvents q' count := by
  simp only [Bc.tickEvents, part_of_pause_eq count hq h]

/-! ### A bit begins (R177) -/

/-- The channel `c` is at the start of the ramp for `bit` between `low` and `high`: upward for a 1, downward
for a 0. -/
structure StartsBit (bit : Bool) (low high step : Int) (c : Channel) : Prop where
  active : c.active = true
  inPause : c.inPause = false
  pauseCount : c.pauseCount = 0
  startFreq : c.startFreq = if bit then low else high
  endFreq : c.endFreq = if bit then high else low
  stepFreq : c.stepFreq = if bit then step else -step
  currentFreq : (c.currentFreq.toNat : Int) = c.startFreq

/-- The ramp's end lies as many steps past its start as its bounds lie apart (R171). -/
theorem StartsBit.endFreq_eq {bit : Bool} {low high step : Int} {c : Channel} {d : Nat}
    (h : StartsBit bit low high step c) (hd : high = low + d * step) :
    c.endFreq = c.startFreq + d * c.stepFreq := by
  rw [h.startFreq, h.endFreq, h.stepFreq]
  cases bit
  · simp [hd]
  · simpa using hd

/-- The three ramp fields, as the two kinds of bit have them. -/
theorem StartsBit.ramp {bit : Bool} {low high step : Int} {c : Channel}
    (h : StartsBit bit low high step c) :
    if bit then c.startFreq = low ∧ c.endFreq = high ∧ c.stepFreq = step
    else c.startFreq = high ∧ c.endFreq = low ∧ c.stepFreq = -step := by
  obtain ⟨-, -, -, hstart, hend, hstep, -⟩ := h
  cases bit
  · exact ⟨hstart, hend, hstep⟩
  · exact ⟨hstart, hend, hstep⟩

theorem StartsBit.stepFreq_ne_zero {bit : Bool} {low high step : Int} {c : Channel}
    (h : StartsBit bit low high step c) (hs : step ≠ 0) : c.stepFreq ≠ 0 := by
  rw [h.stepFreq]
  cases bit <;> simpa using hs

/-- `LoadBit` and the `Push` of its start begin the bit the cursor points at, and change neither the message
nor the cursor. -/
theorem startsBit_loadBit (count slot : Nat) {low high : Int} (step : Int) {c : Channel}
    (ha : c.active = true) (hp : c.inPause = false) (hn : c.pauseCount = 0) (hk : c.bitCursor.val < 8)
    (h0 : 0 ≤ low) (h1 : high ≤ 65535) (hle : low ≤ high) {c' : Channel}
    (hc' : c' = { loadBit count slot low high step c with
      currentFreq := narrowFreq count slot (loadBit count slot low high step c).startFreq }) :
    c'.message = c.message ∧ c'.bitCursor = c.bitCursor ∧
    StartsBit (c.message.getLsbD (7 - c.bitCursor.val)) low high step c' := by
  obtain ⟨hs0, hs1⟩ := loadBit_start_range count slot low high step c h0 h1 hle
  have hcurrent := narrowFreq_toNat count slot _ hs0 hs1
  rw [loadBit, bit_of_lt count slot c hk] at hc' hcurrent
  cases hbit : c.message.getLsbD (7 - c.bitCursor.val) <;> rw [hbit] at hc' hcurrent <;> subst hc'
  · exact ⟨rfl, rfl, ha, hp, hn, rfl, rfl, rfl, hcurrent⟩
  · exact ⟨rfl, rfl, ha, hp, hn, rfl, rfl, rfl, hcurrent⟩

/-- The crossing test, read strictly (R180). -/
theorem crossed_iff (c : Channel) (stepped : Int) : c.crossed stepped = true ↔
    (0 < c.stepFreq ∧ c.endFreq < stepped) ∨ (c.stepFreq < 0 ∧ stepped < c.endFreq) := by
  simp [Channel.crossed]

/-- A step that does not pass the end stays between the bounds, so in the 16-bit range. -/
theorem stepped_range {c : Channel} (hc : ChannelOk c) (ha : c.active = true) (hp : c.inPause = false)
    (hx : ¬ c.crossed (c.currentFreq.toNat + c.stepFreq) = true) :
    0 ≤ (c.currentFreq.toNat : Int) + c.stepFreq ∧ (c.currentFreq.toNat : Int) + c.stepFreq ≤ 65535 := by
  rw [crossed_iff] at hx
  obtain ⟨-, hmin, hmax⟩ := hc.ramping ha hp
  have hranges := hc.ranges
  omega

/-! ### The arms of a channel (R176) -/

theorem channelTick_ch (q : BcParams) (req : Bool) (msg : Byte) (count slot : Nat) (c : Channel) :
    (channelTick q req msg count slot c).ch =
      { (channelStep q req msg count slot c).ch with
        currentFreq := narrowFreq count slot (channelStep q req msg count slot c).next } :=
  push_ch count slot _

/-- The count of a pause stays in its 17 bits. -/
theorem pauseCount_succ_toNat {k : BitVec 17} {limit : Half} (h : k.toNat + 1 ≤ limit.toNat) :
    (BitVec.ofNat 17 (k.toNat + 1)).toNat = k.toNat + 1 := by
  rw [BitVec.toNat_ofNat]
  have := limit.isLt
  omega

section Arms

variable (q : BcParams) (req : Bool) (msg : Byte) (count slot : Nat) {c : Channel}

/-- Arm A (R178). -/
theorem channelTick_dispatch (hr : req = true) (ha : c.active = false) (hq : q.inFreqRange = true) :
    (channelTick q req msg count slot c).ch.message = msg ∧
    (channelTick q req msg count slot c).ch.bitCursor = 0 ∧
    StartsBit (msg.getLsbD 7) q.bottom q.top q.slope.toNat
      (channelTick q req msg count slot c).ch := by
  obtain ⟨h0, h1⟩ := (inFreqRange_iff q).mp hq
  have hch := channelTick_ch q req msg count slot c
  rw [channelStep, if_pos ⟨hr, ha⟩] at hch
  exact startsBit_loadBit (c := { c with
    message := msg, bitCursor := 0, inPause := false, pauseCount := 0, active := true })
    count slot _ rfl rfl rfl (by simp) h0 h1 (bottom_le_top q) hch

/-- Arm D. -/
theorem channelTick_dormant (hr : req = false) (ha : c.active = false) :
    (channelTick q req msg count slot c).ch = c := by
  rw [channelTick_ch, channelStep, if_neg (by simp [hr]), if_neg (by simp [ha]), if_neg (by simp [ha]),
    narrowFreq_freq]

section Active

variable (ha : c.active = true)
include ha

theorem channelStep_paused (hp : c.inPause = true) :
    channelStep q req msg count slot c = channelPaused q count slot c := by
  rw [channelStep, if_neg (by simp [ha]), if_pos ⟨ha, hp⟩]

theorem channelStep_ramping (hp : c.inPause = false) :
    channelStep q req msg count slot c = channelRamp count slot c := by
  rw [channelStep, if_neg (by simp [ha]), if_neg (by simp [hp]), if_pos ha]

/-- Arm B, the pause goes on (R181). -/
theorem channelTick_wait (hp : c.inPause = true) (hle : c.pauseCount.toNat + 1 ≤ q.pause.toNat) :
    (channelTick q req msg count slot c).ch =
      { c with pauseCount := BitVec.ofNat 17 (c.pauseCount.toNat + 1) } := by
  rw [channelTick_ch, channelStep_paused q req msg count slot ha hp, channelPaused, if_neg (by omega),
    narrowFreq_freq]

/-- Arm B, the pause is over: the bounds are recovered from the channel's own fields (R181). -/
theorem channelTick_resume (hc : ChannelOk c) (hp : c.inPause = true)
    (hlt : q.pause.toNat < c.pauseCount.toNat + 1) :
    (channelTick q req msg count slot c).ch.message = c.message ∧
    (channelTick q req msg count slot c).ch.bitCursor = c.bitCursor ∧
    StartsBit (c.message.getLsbD (7 - c.bitCursor.val)) (min c.startFreq c.endFreq)
      (max c.startFreq c.endFreq) |c.stepFreq| (channelTick q req msg count slot c).ch := by
  have hch := channelTick_ch q req msg count slot c
  rw [channelStep_paused q req msg count slot ha hp, channelPaused, if_pos hlt] at hch
  obtain ⟨-, -, hcursor⟩ := hc.paused ha hp
  have hranges := hc.ranges
  exact startsBit_loadBit (c := { c with inPause := false, pauseCount := 0 }) count slot _ ha rfl rfl
    (by dsimp only; omega) (by omega) (by omega) (by omega) hch

section Ramping

variable (hp : c.inPause = false)
include hp

/-- Arm C, the end is not passed (R180). -/
theorem channelTick_step (hx : ¬ c.crossed (c.currentFreq.toNat + c.stepFreq) = true) :
    (channelTick q req msg count slot c).ch =
      { c with currentFreq := narrowFreq count slot (c.currentFreq.toNat + c.stepFreq) } := by
  rw [channelTick_ch, channelStep_ramping q req msg count slot ha hp, channelRamp]
  rw [if_neg hx]

/-- The hang of a step of 0: the end is never passed, and what is commanded is commanded again (R237). -/
theorem channelTick_hang (hs : c.stepFreq = 0) : (channelTick q req msg count slot c).ch = c := by
  have hx : ¬ c.crossed (c.currentFreq.toNat + c.stepFreq) = true := by simp [crossed_iff, hs]
  have hf : narrowFreq count slot (c.currentFreq.toNat + c.stepFreq) = c.currentFreq := by
    rw [hs, add_zero, narrowFreq_freq]
  rw [channelTick_step q req msg count slot ha hp hx, hf]

/-- Arm C, the end is passed before the 8th bit: silence, and the pause before the next bit (R180). -/
theorem channelTick_pause (hx : c.crossed (c.currentFreq.toNat + c.stepFreq) = true)
    (hk : c.bitCursor.val < 7) :
    (channelTick q req msg count slot c).ch =
      { c with bitCursor := bump count slot c.bitCursor, inPause := true, pauseCount := 0,
               currentFreq := 0 } := by
  rw [channelTick_ch, channelStep_ramping q req msg count slot ha hp, channelRamp]
  rw [if_pos hx, if_neg (by omega), narrowFreq_zero]

/-- Arm C, the end is passed in the 8th bit: the all-zero record (R180). -/
theorem channelTick_finish (hx : c.crossed (c.currentFreq.toNat + c.stepFreq) = true)
    (hk : c.bitCursor.val = 7) : (channelTick q req msg count slot c).ch = Channel.zero := by
  rw [channelTick_ch, channelStep_ramping q req msg count slot ha hp, channelRamp]
  rw [if_pos hx, if_pos (by omega), narrowFreq_zero]
  rfl

end Ramping
end Active
end Arms

end Sys2Proof.Machine

namespace Sys2Proof.Proofs
open Sys2Proof.Machine

/-- Settles O37: the two bounds, over the integers. -/
theorem boundsAroundCentre : Obligations.BoundsAroundCentre := fun q => ⟨bottom_eq q, top_eq q⟩

/-- Settles O59: the mask is that of the ticked broadcaster, and the record of parameters keeps its channels
within the 16 bits of the answer. -/
theorem btickForAnyParameters : Obligations.BtickForAnyParameters := by
  intro p s hp hrange
  obtain ⟨-, -, hnch⟩ := (wf_iff p).mp hp
  obtain ⟨t, ht, hran⟩ := execBtick_ran s hrange
  exact ⟨t, activeMask t.bc, ht, hran.answer, fun i => activeMask_getLsbD t.bc i hnch,
    fun k => activeMask_high t.bc k, hran.emits_channelChanges,
    fun i hi => by rw [hran.broadcaster, ticked_req_of_last _ _ _ i hi],
    by rw [hran.broadcaster, ticked_message], hran.params, hran.engine, hran.beacon⟩

/-- Settles O40: the tick of the TFMS with the values of R7. -/
theorem btickAnswersActiveMask : Obligations.BtickAnswersActiveMask := by
  intro s hrange
  obtain ⟨t, mask, ht, hanswer, hlow, hhigh, -, -, hunits⟩ :=
    btickForAnyParameters Config.params s params_wf hrange
  exact ⟨t, mask, ht, hanswer, hlow, hhigh, hunits⟩

/-- Settles O41: the refusal's condition, with the dispatch and the bounds written out. -/
theorem btickRefusedOutsideRange : Obligations.BtickRefusedOutsideRange := by
  intro s
  have hrefused : exec .btick s = .refused .dispatchOutsideFreqRange ↔ _ := execBtick_refused_iff s
  rw [hrefused, dispatches_iff, inFreqRange_iff, top_eq, bottom_eq, and_assoc]
  rfl

/-- Settles O17: without a dispatch a tick reads `P[8]` alone. -/
theorem runningBroadcastIgnoresBounds : Obligations.RunningBroadcastIgnoresBounds := by
  intro s s' hidle hbc hport hcount hpause
  have hidle' : s'.bc.dispatches = false := hbc ▸ hidle
  have hq : s'.bcParams.pause = s.bcParams.pause := hpause
  refine ⟨_, _, execBtick_next s (by simp [hidle]), execBtick_next s' (by simp [hidle']), ?_, ?_⟩
  · simp only [respond_bc, emitAll_bc]
    rw [ticked_of_pause_eq _ hq hidle', hbc, hcount]
  · simp only [respond, emitAll]
    rw [ticked_of_pause_eq _ hq hidle', tickEvents_of_pause_eq _ hq hidle', hbc, hcount, hport]

/-- Settles O42: the arm of a dispatch, which runs only with its bounds in range. -/
theorem btickDispatchesDormantChannel : Obligations.BtickDispatchesDormantChannel := by
  intro s t i h hreq ha c q
  have hran := btickRan_of_next h
  have hq := hran.inRange ((dispatches_iff s.bc).mpr ⟨hreq, i, ha⟩)
  obtain ⟨hmessage, hcursor, hbit⟩ :=
    channelTick_dispatch q s.bc.req s.bc.message s.freeCount i hreq ha hq
  rw [← hran.ch i] at hmessage hcursor hbit
  exact ⟨hmessage, hcursor, hbit.inPause, hbit.pauseCount, hbit.active, hbit.ramp, hbit.currentFreq⟩

/-- Settles O43: the pause goes on or the next bit begins, by the count. -/
theorem btickCountsPause : Obligations.BtickCountsPause := by
  intro s t i h hc ha hp c c' low high
  have hch : c' = _ := (btickRan_of_next h).ch i
  refine ⟨fun hle => ?_, fun hlt => ?_⟩
  · have hwait := hch.trans (channelTick_wait s.bcParams s.bc.req s.bc.message s.freeCount i ha hp hle)
    rw [hwait]
    exact ⟨pauseCount_succ_toNat hle, rfl⟩
  · obtain ⟨hmessage, hcursor, hbit⟩ :=
      channelTick_resume s.bcParams s.bc.req s.bc.message s.freeCount i ha hc hp hlt
    rw [← hch] at hmessage hcursor hbit
    exact ⟨hbit.inPause, hbit.pauseCount, hbit.active, hmessage, hcursor, hbit.ramp, hbit.currentFreq⟩

/-- Settles O44: the step is commanded, or the pause begins, or the byte is finished, by the crossing test and
the cursor. -/
theorem btickRampsChannel : Obligations.BtickRampsChannel := by
  intro s t i h hc ha hp c c' stepped crossed
  have hch : c' = _ := (btickRan_of_next h).ch i
  have hcrossed : crossed ↔ c.crossed stepped = true := (crossed_iff c stepped).symm
  rw [hcrossed]
  refine ⟨fun hx => ?_, fun hx hk => ?_, fun hx hk => ?_⟩
  · have hstep := hch.trans
      (channelTick_step s.bcParams s.bc.req s.bc.message s.freeCount i ha hp hx)
    obtain ⟨h0, h1⟩ := stepped_range hc ha hp hx
    constructor
    · rw [hstep]
      exact narrowFreq_toNat _ _ _ h0 h1
    · rw [hstep]
  · have hpause := hch.trans
      (channelTick_pause s.bcParams s.bc.req s.bc.message s.freeCount i ha hp hx hk)
    rw [hpause]
    exact ⟨rfl, bump_val _ _ _ (Nat.lt_succ_of_lt hk), rfl, rfl, rfl⟩
  · have hfinish := hch.trans
      (channelTick_finish s.bcParams s.bc.req s.bc.message s.freeCount i ha hp hx hk)
    rw [hfinish]
    exact channelZero_zero

/-- Settles O45: a dormant channel takes arm D, and a step of 0 never passes the end and commands what is
commanded. -/
theorem btickLeavesChannel : Obligations.BtickLeavesChannel := by
  intro s t i h hcase
  rw [(btickRan_of_next h).ch i]
  obtain ⟨ha, hreq⟩ | ⟨ha, hp, hstep⟩ := hcase
  · exact channelTick_dormant _ _ _ _ _ hreq ha
  · exact channelTick_hang _ _ _ _ _ ha hp hstep

/-- Settles O46: the last channel has the index `NCH - 1`. -/
theorem btickClearsRequest : Obligations.BtickClearsRequest := by
  intro s t h
  rw [(btickRan_of_next h).broadcaster]
  exact ticked_req_of_last _ _ s.bc ⟨Config.nch - 1, by decide⟩ rfl

/-- Settles O47: in lockstep the first channel decides for all. -/
theorem oneRequestOneBroadcast : Obligations.OneRequestOneBroadcast := by
  intro s t hb hreq h
  have hreq' := btickClearsRequest s t h
  cases ha : s.bc.ch[(0 : Fin Config.nch)].active with
  | false =>
    have hall (i : Fin Config.nch) : s.bc.ch[i].active = false := by rw [hb.lockstep i 0, ha]
    refine .inl ⟨hall, ?_, fun i => ?_⟩
    · rw [hreq', hreq]
      exact hall ⟨Config.nch - 1, by decide⟩
    · obtain ⟨hmessage, hcursor, -, -, hactive, -⟩ :=
        btickDispatchesDormantChannel s t i h hreq (hall i)
      exact ⟨hactive, hmessage, hcursor⟩
  | true =>
    have hall (i : Fin Config.nch) : s.bc.ch[i].active = true := by rw [hb.lockstep i 0, ha]
    refine .inr ⟨hall, ?_⟩
    rw [hreq', hreq]
    exact hall ⟨Config.nch - 1, by decide⟩

end Sys2Proof.Proofs
end

section
/-! PROOF. Runs of one word repeated: the length of a broadcast and of a beacon's hold
(43_broadcaster.md R183, 44_beacon.md R193 (a)). -/

namespace Sys2Proof.Machine

variable {n : Nat}

/-! ### A word repeated (60_exceptions.md R215) -/

/-- One word more. -/
theorem runWords_replicate_succ {w : Word} {k : Nat} {s u t : State}
    (hrun : runWords (List.replicate k w) s = .next u) (hword : acceptWord w u = .next t) :
    runWords (List.replicate (k + 1) w) s = .next t := by
  rw [List.replicate_succ', runWords_append [w] hrun, runWords_cons [] hword, runWords_nil]

/-- A property indexed by the number of words run, which each word takes one further, holds after every
number of them up to the last one it is kept by. -/
theorem runWords_replicate {w : Word} (Holds : Nat → State → Prop) (len : Nat) {s : State}
    (hstart : Holds 0 s)
    (hstep : ∀ k u, k < len → Holds k u → ∃ t, acceptWord w u = .next t ∧ Holds (k + 1) t) :
    ∀ k ≤ len, ∃ t, runWords (List.replicate k w) s = .next t ∧ Holds k t := by
  intro k
  induction k with
  | zero => exact fun _ => ⟨s, rfl, hstart⟩
  | succ k ih =>
    intro hk
    obtain ⟨u, hrun, hu⟩ := ih (Nat.le_of_succ_le hk)
    obtain ⟨t, hword, ht⟩ := hstep k u hk hu
    exact ⟨t, runWords_replicate_succ hrun hword, ht⟩

/-! ### The rest of a broadcast (43_broadcaster.md R183) -/

/-- The ticks from the start of one bit to the start of the next: the start and `d` steps, the crossing, and a
pause of `Q`. -/
def bitTicks (d Q : Nat) : Nat := d + Q + 2

/-- Before the last bit there is one bit more to go. -/
theorem bits_left_succ {k B : Nat} (hk : k < 7) : (7 - k) * B = (7 - (k + 1)) * B + B := by
  rw [← Nat.succ_mul]
  congr 1
  omega

/-- How many ticks a channel within its byte has left, from where it stands in the ramp or in the pause. -/
inductive TicksLeft (d Q : Nat) (c : Channel) (left : Nat) : Prop
  /-- `m` of the `d` steps are made; the tick after the last crosses the end. -/
  | ramping (m : Nat) (hm : m ≤ d) (hp : c.inPause = false)
      (hfreq : (c.currentFreq.toNat : Int) = c.startFreq + m * c.stepFreq)
      (hleft : left = (d - m) + 1 + (7 - c.bitCursor.val) * bitTicks d Q)
  /-- The pause has been counted up to its count; then the bit under the cursor begins. -/
  | pausing (hcount : c.pauseCount.toNat ≤ Q) (hp : c.inPause = true)
      (hleft : left = (Q - c.pauseCount.toNat) + 1 + (d + 1) +
        (7 - c.bitCursor.val) * bitTicks d Q)

theorem TicksLeft.pos {d Q left : Nat} {c : Channel} (h : TicksLeft d Q c left) : 0 < left := by
  cases h with
  | ramping m hm hp hfreq hleft => omega
  | pausing hcount hp hleft => omega

/-- A channel in a broadcast of bits of `d` steps with pauses of `Q`, with `left` ticks to go. -/
structure Broadcasting (d Q : Nat) (c : Channel) (left : Nat) : Prop where
  ok : ChannelOk c
  active : c.active = true
  step : c.stepFreq ≠ 0
  wholeSteps : c.endFreq = c.startFreq + d * c.stepFreq
  ticksLeft : TicksLeft d Q c left

/-- Short of the end a step does not cross it. -/
theorem not_crossed_of_steps_left {c : Channel} {d m : Nat} (hm : m < d)
    (hend : c.endFreq = c.startFreq + d * c.stepFreq) :
    ¬ c.crossed (c.startFreq + (m + 1 : Nat) * c.stepFreq) = true := by
  obtain ⟨e, rfl⟩ := Nat.exists_eq_add_of_lt hm
  rw [crossed_iff, hend]
  push_cast
  rintro (⟨hpos, hlt⟩ | ⟨hneg, hlt⟩)
  · have := mul_nonneg (Int.natCast_nonneg e) hpos.le
    linarith
  · have := mul_nonneg_of_nonpos_of_nonpos (neg_nonpos.mpr (Int.natCast_nonneg e)) hneg.le
    linarith

/-- At the end the next step crosses it. -/
theorem crossed_at_end {c : Channel} {d : Nat} (hs : c.stepFreq ≠ 0)
    (hend : c.endFreq = c.startFreq + d * c.stepFreq) :
    c.crossed (c.startFreq + d * c.stepFreq + c.stepFreq) = true := by
  rw [crossed_iff, hend]
  omega

/-- A channel that has just begun the bit under its cursor, `left` counting from the start of the ramp. -/
theorem Broadcasting.of_startsBit {d Q left : Nat} {bit : Bool} {low high step : Int} {c : Channel}
    (hok : ChannelOk c) (h : StartsBit bit low high step c) (hs : step ≠ 0)
    (hd : high = low + d * step) (hleft : left = d + 1 + (7 - c.bitCursor.val) * bitTicks d Q) :
    Broadcasting d Q c left where
  ok := hok
  active := h.active
  step := h.stepFreq_ne_zero hs
  wholeSteps := h.endFreq_eq hd
  ticksLeft := .ramping 0 (Nat.zero_le d) h.inPause (by simp [h.currentFreq]) (by omega)

/-- The bounds a pause recovers lie as many steps apart as the ramp's ends (R181). -/
theorem max_eq_min_add_steps {c : Channel} {d : Nat} (hend : c.endFreq = c.startFreq + d * c.stepFreq) :
    max c.startFreq c.endFreq = min c.startFreq c.endFreq + d * |c.stepFreq| := by
  rcases le_total 0 c.stepFreq with hs | hs
  · have := mul_nonneg (Int.natCast_nonneg d) hs
    rw [abs_of_nonneg hs, min_eq_left (by omega), max_eq_right (by omega), hend]
  · have := mul_nonpos_of_nonneg_of_nonpos (Int.natCast_nonneg d) hs
    rw [abs_of_nonpos hs, min_eq_right (by omega), max_eq_left (by omega), hend]
    ring

section Tick

variable {d Q left : Nat} {c : Channel} {q : BcParams} (msg : Byte) (count slot : Nat)

/-- One tick takes a ramping channel one tick further, and the last one to the all-zero record. -/
theorem Broadcasting.tick_of_ramping (h : Broadcasting d Q c (left + 1)) (hp : c.inPause = false)
    {m : Nat} (hm : m ≤ d) (hfreq : (c.currentFreq.toNat : Int) = c.startFreq + m * c.stepFreq)
    (hleft : left + 1 = (d - m) + 1 + (7 - c.bitCursor.val) * bitTicks d Q) :
    (left = 0 ∧ (channelTick q false msg count slot c).ch = Channel.zero) ∨
    Broadcasting d Q (channelTick q false msg count slot c).ch left := by
  obtain ⟨hok, ha, hs, hend, -⟩ := h
  have hok' := channelTick_ok q false msg count slot c hok nofun
  obtain ⟨hcursor, -, -⟩ := hok.ramping ha hp
  obtain hlt | rfl := Nat.lt_or_eq_of_le hm
  · have hstepped : (c.currentFreq.toNat : Int) + c.stepFreq =
        c.startFreq + (m + 1 : Nat) * c.stepFreq := by
      rw [hfreq]
      push_cast
      ring
    have hx : ¬ c.crossed (c.currentFreq.toNat + c.stepFreq) = true :=
      hstepped ▸ not_crossed_of_steps_left hlt hend
    obtain ⟨h0, h1⟩ := stepped_range hok ha hp hx
    rw [channelTick_step q false msg count slot ha hp hx] at hok' ⊢
    exact .inr ⟨hok', ha, hs, hend, .ramping (m + 1) hlt hp
      ((narrowFreq_toNat _ _ _ h0 h1).trans hstepped) (by dsimp only; omega)⟩
  · have hx : c.crossed (c.currentFreq.toNat + c.stepFreq) = true := hfreq ▸ crossed_at_end hs hend
    obtain hlt7 | heq7 := Nat.lt_or_eq_of_le hcursor
    · have hbump := bump_val count slot c.bitCursor (Nat.lt_succ_of_lt hlt7)
      have hzero : (0 : BitVec 17).toNat = 0 := rfl
      rw [channelTick_pause q false msg count slot ha hp hx hlt7] at hok' ⊢
      refine .inr ⟨hok', ha, hs, hend, .pausing (Nat.zero_le _) rfl ?_⟩
      rw [bits_left_succ hlt7] at hleft
      dsimp only
      rw [hbump, hzero]
      simp only [bitTicks] at hleft ⊢
      omega
    · refine .inl ⟨?_, channelTick_finish q false msg count slot ha hp hx heq7⟩
      rw [heq7] at hleft
      omega

/-- One tick takes a pausing channel one tick further: the count goes up, or the next bit begins. -/
theorem Broadcasting.tick_of_pausing (h : Broadcasting d Q c (left + 1)) (hQ : q.pause.toNat = Q)
    (hp : c.inPause = true) (hcount : c.pauseCount.toNat ≤ Q)
    (hleft : left + 1 =
      (Q - c.pauseCount.toNat) + 1 + (d + 1) + (7 - c.bitCursor.val) * bitTicks d Q) :
    Broadcasting d Q (channelTick q false msg count slot c).ch left := by
  obtain ⟨hok, ha, hs, hend, -⟩ := h
  have hok' := channelTick_ok q false msg count slot c hok nofun
  obtain hlt | hge := Nat.lt_or_ge c.pauseCount.toNat Q
  · have hle : c.pauseCount.toNat + 1 ≤ q.pause.toNat := hQ ▸ hlt
    have hsucc := pauseCount_succ_toNat hle
    rw [channelTick_wait q false msg count slot ha hp hle] at hok' ⊢
    exact ⟨hok', ha, hs, hend, .pausing (by dsimp only; omega) hp (by dsimp only; omega)⟩
  · obtain ⟨-, hcursor, hbit⟩ := channelTick_resume q false msg count slot ha hok hp (by omega)
    refine .of_startsBit hok' hbit (abs_ne_zero.mpr hs) (max_eq_min_add_steps hend) ?_
    rw [hcursor]
    omega

/-- One tick takes a channel in a broadcast one tick further, and the last one to the all-zero record. -/
theorem Broadcasting.tick (h : Broadcasting d Q c (left + 1)) (hQ : q.pause.toNat = Q) :
    (left = 0 ∧ (channelTick q false msg count slot c).ch = Channel.zero) ∨
    Broadcasting d Q (channelTick q false msg count slot c).ch left := by
  cases h.ticksLeft with
  | ramping m hm hp hfreq hleft => exact h.tick_of_ramping msg count slot hp hm hfreq hleft
  | pausing hcount hp hleft => exact .inr (h.tick_of_pausing msg count slot hQ hp hcount hleft)

end Tick

/-! ### All channels of a broadcast -/

/-- `left` BTICKs before the end of a broadcast under the parameters `P`: every channel is that far from its
end, and at the end the all-zero record. -/
structure BroadcastLeft (P : Vector Half Config.nparam) (left : Nat) (s : State.Of n) : Prop where
  params : s.P = P
  req : s.bc.req = false
  done : left = 0 → ∀ i : Fin n, s.bc.ch[i] = Channel.zero
  busy : 0 < left → ∀ i : Fin n, Broadcasting P[7].toNat P[8].toNat s.bc.ch[i] left

theorem BroadcastLeft.tick {P : Vector Half Config.nparam} {left : Nat} {s : State.Of n}
    (h : BroadcastLeft P (left + 1) s) :
    ∃ t, execBtick s = .next t ∧ BroadcastLeft P left t := by
  obtain ⟨t, ht, hran⟩ := execBtick_ran s (by simp [not_dispatches_of_not_req h.req])
  have hQ : s.bcParams.pause.toNat = P[8].toNat := by
    rw [← h.params]
    rfl
  have hch (i : Fin n) : (left = 0 ∧ t.bc.ch[i] = Channel.zero) ∨
      Broadcasting P[7].toNat P[8].toNat t.bc.ch[i] left := by
    rw [hran.ch i, h.req]
    exact (h.busy (Nat.succ_pos left) i).tick s.bc.message s.freeCount i hQ
  refine ⟨t, ht, ⟨hran.params.trans h.params, ?_, fun hleft i => ?_, fun hleft i => ?_⟩⟩
  · rw [hran.broadcaster, ticked_req_of_not_req _ _ h.req]
  · obtain ⟨-, hzero⟩ | hbusy := hch i
    · exact hzero
    · exact absurd hbusy.ticksLeft.pos (by omega)
  · obtain ⟨hzero, -⟩ | hbusy := hch i
    · omega
    · exact hbusy

/-- The BTICKs of a broadcast (R183), the dispatching one included. -/
def broadcastTicks (d Q : Nat) : Nat := 8 * d + 7 * Q + 16

/-- The dispatching BTICK leaves all the ticks of a broadcast but itself. -/
theorem broadcastLeft_of_dispatch {s : State.Of n} (hb : BroadcasterOk s.bc) (hreq : s.bc.req = true)
    (hwf : s.bcParams.wfBc = true) (hidle : ∀ i : Fin n, s.bc.ch[i].active = false) (last : Fin n)
    (hlast : last.val + 1 = n) :
    ∃ t, execBtick s = .next t ∧
      BroadcastLeft s.P (broadcastTicks s.P[7].toNat s.P[8].toNat - 1) t := by
  obtain ⟨⟨hslope, -⟩, hrange⟩ : (1 ≤ s.bcParams.slope.toNat ∧ 1 ≤ s.bcParams.duration.toNat) ∧
      s.bcParams.inFreqRange = true := by simpa [BcParams.wfBc] using hwf
  obtain ⟨t, ht, hran⟩ := execBtick_ran s (fun _ => hrange)
  have hok : BroadcasterOk t.bc := hran.broadcaster ▸ ticked_ok s.freeCount hb (fun _ => hrange)
  refine ⟨t, ht, hran.params, ?_, fun h => ?_, fun _ i => ?_⟩
  · rw [hran.broadcaster, ticked_req_of_last _ _ _ last hlast, hidle last, Bool.and_false]
  · simp only [broadcastTicks] at h
    omega
  · obtain ⟨-, hcursor, hbit⟩ :=
      channelTick_dispatch s.bcParams s.bc.req s.bc.message s.freeCount i hreq (hidle i) hrange
    rw [← hran.ch i] at hcursor hbit
    refine .of_startsBit (hok.channels i) hbit (by omega) ?_ ?_
    · rw [top_eq, mul_comm]
      rfl
    · rw [hcursor]
      simp only [broadcastTicks, bitTicks, Fin.val_zero]
      omega

/-- A BTICK as a word. -/
theorem acceptWord_btick (s : State) : acceptWord 0x22000000 s = execBtick s :=
  acceptWord_ok (i := .btick) s (by decide)

/-! ### The hold of a beacon (44_beacon.md R193) -/

theorem acceptWord_itick (s : State) : acceptWord 0x31000000 s = execItick s :=
  acceptWord_ok (i := .itick) s (by decide)

/-- The beacon holds the mask `mask` with `k` ITICKs counted, none of which emitted anything since `s`. -/
structure Holding {n : Nat} (s : State.Of n) (k : Nat) (u : State.Of n) : Prop where
  params : KeepsParams s u
  active : u.beacon.idActive = true
  count : u.beacon.idCounter.toNat = k
  mask : u.beacon.heldMask = s.beacon.heldMask
  events : Emits s u []

theorem Holding.tick {s u : State.Of n} {k : Nat} (h : Holding s k u) (hk : k + 1 < s.P[11].toNat) :
    ∃ t, execItick u = .next t ∧ Holding s (k + 1) t := by
  obtain ⟨hP, hactive, hcount, hmask, hevents⟩ := h
  obtain ⟨t, ht, hran⟩ := execItick_ran u
  obtain ⟨hactive', hcount', hmask', hevents', -⟩ := hran.hold hactive (by rw [hcount, hP]; exact hk)
  refine ⟨t, ht, hran.params.trans hP, hactive', hcount'.trans (by rw [hcount]), hmask'.trans hmask, ?_⟩
  rw [Emits, hevents', hevents, List.append_nil, List.append_nil]

theorem Holding.over {s u : State.Of n} {k : Nat} (h : Holding s k u) (hk : s.P[11].toNat ≤ k + 1) :
    ∃ t, execItick u = .next t ∧ t.beacon.idActive = false ∧
      Emits s t (beaconEvents s.beacon.heldMask 0) := by
  obtain ⟨hP, hactive, hcount, hmask, hevents⟩ := h
  obtain ⟨t, ht, hran⟩ := execItick_ran u
  obtain ⟨hbeacon, hevents', -⟩ := hran.hold_over hactive (by rw [hcount, hP]; exact hk)
  refine ⟨t, ht, congrArg Beacon.idActive hbeacon, ?_⟩
  rw [Emits, hevents', hevents, List.append_nil, hmask]

end Sys2Proof.Machine

namespace Sys2Proof.Proofs
open Sys2Proof.Machine

/-- Settles O48: the dispatch leaves each channel all the ticks but one, and each further BTICK takes it one
nearer to the all-zero record. -/
theorem broadcastLength : Obligations.BroadcastLength := by
  intro s hb hreq hwf hidle len
  obtain ⟨t1, ht1, hleft⟩ :=
    broadcastLeft_of_dispatch hb hreq hwf hidle ⟨Config.nch - 1, by decide⟩ rfl
  have hlen : len = broadcastTicks s.P[7].toNat s.P[8].toNat := rfl
  rw [← hlen] at hleft
  have hrun := runWords_replicate (w := 0x22000000)
    (fun k u => BroadcastLeft s.P (len - 1 - k) u) (len - 1) hleft (fun k u hk hu => by
      rw [acceptWord_btick]
      rw [show len - 1 - k = len - 1 - (k + 1) + 1 by omega] at hu
      exact hu.tick)
  have hfirst : acceptWord 0x22000000 s = .next t1 := (acceptWord_btick s).trans ht1
  refine ⟨fun k h0 hk => ?_, ?_⟩
  · obtain ⟨k, rfl⟩ := Nat.exists_eq_succ_of_ne_zero h0.ne'
    obtain ⟨t, ht, hu⟩ := hrun k (by omega)
    refine ⟨t, ?_, fun i => (hu.busy (by omega) i).active⟩
    rw [List.replicate_succ, runWords_cons _ hfirst, ht]
  · obtain ⟨t, ht, hu⟩ := hrun (len - 1) le_rfl
    refine ⟨t, ?_, hu.req, fun i => ?_⟩
    · rw [show len = len - 1 + 1 by omega, List.replicate_succ, runWords_cons _ hfirst, ht]
    · rw [hu.done (Nat.sub_self _) i]
      exact channelZero_zero

/-- Settles O51: every ITICK short of the length holds, and the one that reaches it ends the hold. -/
theorem beaconHoldLength : Obligations.BeaconHoldLength := by
  intro s hactive hcount len
  have hstart : Holding s 0 s := ⟨rfl, hactive, by rw [hcount]; rfl, rfl, by simp [Emits]⟩
  have hrun := runWords_replicate (w := 0x31000000) (Holding s) (len - 1) hstart (fun k u hk hu => by
    rw [acceptWord_itick]
    exact hu.tick (by omega))
  have hlen : 1 ≤ len := le_max_right _ _
  refine ⟨fun k hk => ?_, ?_⟩
  · obtain ⟨t, ht, hu⟩ := hrun k (by omega)
    exact ⟨t, ht, hu.active, hu.count, hu.mask, hu.events⟩
  · obtain ⟨u, hu, hhold⟩ := hrun (len - 1) le_rfl
    obtain ⟨t, ht, hdormant, hevents⟩ := hhold.over (by omega)
    refine ⟨t, ?_, hdormant, hevents⟩
    rw [show len = len - 1 + 1 by omega]
    exact runWords_replicate_succ hu ((acceptWord_itick u).trans ht)

end Sys2Proof.Proofs
end

section
/-! PROOF. The engine's commands, each as the state it leaves: CREATE, XMIT, ADV arm by arm, DESTROY, and that
a written parameter reaches none of them but CREATE (42_tone_engine.md R130 to R139, R148; 40_parameters.md
R113). -/

namespace Sys2Proof.Machine

variable {n : Nat}

/-! ### CREATE (R130, R131) -/

/-- `WF_ENG` of the shadow parameters, spelled out over the registers. -/
theorem shadowCfg_wfEng_iff (s : State.Of n) : s.shadowCfg.wfEng = true ↔
    1 ≤ s.P[2].toNat ∧ s.P[0].toNat ≤ s.P[1].toNat ∧
    (s.P[4].getLsbD 0 = true →
      s.P[0].toNat + (s.P[1].toNat - s.P[0].toNat + s.P[2].toNat - 1) / s.P[2].toNat *
        (s.P[2].toNat - 1) ≤ 65535 ∧
      (s.P[1].toNat - s.P[0].toNat + s.P[2].toNat - 1) / s.P[2].toNat * (s.P[2].toNat - 1) ≤
        s.P[1].toNat) := by
  have halphabet : s.shadowCfg.alphabet = .chirp ↔ s.P[4].getLsbD 0 = true := by
    simp [State.Of.shadowCfg, Alphabet.ofBit, State.Of.pAlphabet]
  rw [wfEng_iff, halphabet]
  refine and_congr_right fun hticks => ?_
  rw [show s.shadowCfg.freqSlope.toNat = _ from slopeOf_toNat s.P[0] s.P[1] s.P[2] hticks]
  rfl

theorem execCreate_refused_iff (s : State.Of n) :
    execCreate s = .refused .createOutsideWfEng ↔ ¬ s.shadowCfg.wfEng = true := by
  by_cases hwf : s.shadowCfg.wfEng = true
  · rw [execCreate_wf s hwf]
    exact iff_of_false nofun (not_not_intro hwf)
  · exact iff_of_true (execCreate_outside s hwf) hwf

/-! ### Silence (R132) -/

/-- An engine command that leaves the engine silent emits the change to silence. -/
theorem EngineRan.emits_silence {v : Half} {s t : State.Of n} (h : EngineRan v s t)
    (hsilent : t.eng.currentFreq = 0) : Emits s t (changeEvent .eng 0 s.eng.currentFreq 0) :=
  hsilent ▸ h.events

theorem txClear_created (s : State.Of n) : TxClear (created s).eng := txClear_clearTx (command 0 s)

theorem txClear_destroyed (s : State.Of n) : TxClear (destroyed s).eng := txClear_clearTx (command 0 s)

/-! ### XMIT (R133) -/

theorem started_eng (b : Byte) (s : State.Of n) :
    (started b s).eng = { (planned b s).eng with
      currentFreq := if (encodeSymbols b s.eng.cfg.alphabet)[0] = .low ∨
        (encodeSymbols b s.eng.cfg.alphabet)[0] = .up then s.eng.cfg.lowFreq
        else s.eng.cfg.highFreq } := by
  rw [started, command_eng, narrowFreq_plan_zero]

/-! ### A written parameter (40_parameters.md R113) -/

/-- A write before an answer is a write after it. -/
theorem next_respond_writeParam {st : Status} {value : Half} {p : Fin Config.nparam} {v : Half}
    {u u' : State.Of n} (h : u = writeParam p v u') :
    (.next (respond st value u) : Host.Outcome (State.Of n) Fault Refusal) =
      .next (writeParam p v (respond st value u')) := by
  rw [h]
  rfl

theorem command_writeParam (f : Int) (p : Fin Config.nparam) (v : Half) (s : State.Of n) :
    command f (writeParam p v s) = writeParam p v (command f s) := by
  unfold command
  by_cases h : narrowFreq s.freeCount 0 f = s.eng.currentFreq
  · simp [h]
  · simp only [writeParam_eng, writeParam_freeCount, ne_eq, h, not_false_eq_true, if_true]
    rfl

theorem started_writeParam (b : Byte) (p : Fin Config.nparam) (v : Half) (s : State.Of n) :
    started b (writeParam p v s) = writeParam p v (started b s) :=
  command_writeParam _ p v (planned b s)

theorem destroyed_writeParam (p : Fin Config.nparam) (v : Half) (s : State.Of n) :
    destroyed (writeParam p v s) = writeParam p v (destroyed s) := by
  rw [destroyed, command_writeParam]
  rfl

/-- XMIT reads no parameter register. -/
theorem execXmit_writeParam (b : Byte) (p : Fin Config.nparam) (v : Half) (s : State.Of n) :
    ∃ t, execXmit b s = .next t ∧ execXmit b (writeParam p v s) = .next (writeParam p v t) := by
  cases hexists : s.eng.existsBit with
  | false => exact ⟨_, execXmit_inert b s hexists, execXmit_inert b (writeParam p v s) hexists⟩
  | true =>
    cases htx : s.eng.isTransmitting with
    | true => exact ⟨_, execXmit_busy b s hexists htx, execXmit_busy b (writeParam p v s) hexists htx⟩
    | false =>
      refine ⟨_, execXmit_idle b s hexists htx, ?_⟩
      rw [execXmit_idle b (writeParam p v s) hexists htx]
      exact next_respond_writeParam (started_writeParam b p v s)

/-- ADV takes the same arm after a parameter write, and reads no parameter register in it. -/
theorem AdvArm.execAdv_writeParam {s t : State.Of n} (h : AdvArm s t) (p : Fin Config.nparam) (v : Half) :
    execAdv (writeParam p v s) = .next (writeParam p v t) := by
  cases h with
  | idle htx => exact (AdvArm.idle (s := writeParam p v s) htx).execAdv_eq
  | pausing htx hneg => exact (AdvArm.pausing (s := writeParam p v s) htx hneg).execAdv_eq
  | inside htx h0 hlt =>
    refine (AdvArm.inside (s := writeParam p v s) htx h0 hlt).execAdv_eq.trans ?_
    exact next_respond_writeParam (command_writeParam _ p v (setPosition _ _ s))
  | complete htx h0 hle hlast =>
    refine (AdvArm.complete (s := writeParam p v s) htx h0 hle hlast).execAdv_eq.trans ?_
    exact next_respond_writeParam (congrArg clearTx (command_writeParam 0 p v s))
  | pause htx h0 hle hnotLast hp =>
    refine (AdvArm.pause (s := writeParam p v s) htx h0 hle hnotLast hp).execAdv_eq.trans ?_
    exact next_respond_writeParam (congrArg (setPosition _ _) (command_writeParam 0 p v s))
  | next htx h0 hle hnotLast hp =>
    refine (AdvArm.next (s := writeParam p v s) htx h0 hle hnotLast hp).execAdv_eq.trans ?_
    exact next_respond_writeParam (command_writeParam _ p v (setPosition _ _ s))

end Sys2Proof.Machine

namespace Sys2Proof.Proofs
open Sys2Proof.Machine

/-- Settles O20: CREATE leaves `created` of the state, answered. -/
theorem createLoadsConfiguration : Obligations.CreateLoadsConfiguration := by
  intro s hwf
  obtain ⟨hticks, -, -⟩ := (shadowCfg_wfEng_iff s).mp hwf
  have hran := (created_moved s).respond 0
  have hsilent : (respond .ok 0 (created s)).eng.currentFreq = 0 := clearTx_command_zero_currentFreq s
  exact ⟨_, execCreate_wf s hwf, rfl, rfl, rfl, rfl, rfl, slopeOf_toNat _ _ _ hticks, rfl,
    txClear_created s, hsilent, hran.emits_silence hsilent, hran.answer, hran.params, hran.broadcaster,
    hran.beacon⟩

/-- Settles O21: the refusal's condition is `WF_ENG` of the configuration CREATE would load. -/
theorem createRefusedOutsideWfEng : Obligations.CreateRefusedOutsideWfEng :=
  fun s => (execCreate_refused_iff s).trans (not_congr (shadowCfg_wfEng_iff s))

/-- Settles O22: XMIT on an idle engine leaves `started` of the state, answered. -/
theorem xmitStartsTransmission : Obligations.XmitStartsTransmission := by
  intro b s hexists htx
  have hran := (started_moved b s).respond 0
  have heng : (respond .ok 0 (started b s)).eng = _ := started_eng b s
  exact ⟨_, execXmit_idle b s hexists htx, congrArg Eng.symbols heng, congrArg Eng.symbolIndex heng,
    congrArg Eng.tickCounter heng, congrArg Eng.isTransmitting heng, by rw [heng]; rfl,
    (congrArg Eng.existsBit heng).trans hexists, command_cfg _ (planned b s), hran.events, hran.answer,
    hran.params, hran.broadcaster, hran.beacon⟩

/-- Settles O30: DESTROY leaves `destroyed` of the state, answered. -/
theorem destroyLeavesInert : Obligations.DestroyLeavesInert := by
  intro s
  have hran := (destroyed_moved s).respond 0
  have hsilent : (respond .ok 0 (destroyed s)).eng.currentFreq = 0 := clearTx_command_zero_currentFreq s
  exact ⟨_, execDestroy_eq s, rfl, cfgZero_zero, txClear_destroyed s, hsilent, hran.params,
    hran.broadcaster, hran.beacon, hran.emits_silence hsilent, hran.answer⟩

/-- Settles O16: the engine's commands but CREATE read the engine alone. -/
theorem shadowParametersDoNotReachEngine : Obligations.ShadowParametersDoNotReachEngine := by
  intro i p v s hop
  cases i with
  | xmit b => exact execXmit_writeParam b p v s
  | adv =>
    obtain ⟨t, harm⟩ := exists_advArm s
    exact ⟨t, harm.execAdv_eq, harm.execAdv_writeParam p v⟩
  | qtx => exact ⟨_, rfl, rfl⟩
  | stop =>
    exact ⟨_, execStop_eq s,
      next_respond_writeParam (congrArg clearTx (command_writeParam 0 p v s))⟩
  | destroy =>
    exact ⟨_, execDestroy_eq s,
      next_respond_writeParam (destroyed_writeParam p v s)⟩
  | _ => simp [Instr.op] at hop

end Sys2Proof.Proofs
end

section
/-! PROOF. ADV arm by arm, the phases of the engine, and the length of a transmission (42_tone_engine.md R134
to R142). -/

namespace Sys2Proof.Machine

variable {n : Nat}

/-! ### The tick counter (10_state.md R27) -/

/-- Counting up inside a pause stays in the 17 bits of the counter. -/
theorem tickCounter_succ_of_neg {t : BitVec 17} (h : t.toInt + 1 < 0) :
    (BitVec.ofInt 17 (t.toInt + 1)).toInt = t.toInt + 1 := by
  have hlow : -65536 ≤ t.toInt := t.le_toInt
  exact tickCounter_toInt _ (by omega) (by omega)

/-- So does counting up inside a symbol. -/
theorem tickCounter_of_lt {t : Int} {limit : Ticks} (h0 : 0 ≤ t) (h : t < limit.toNat) :
    (BitVec.ofInt 17 t).toInt = t := by
  have := limit.isLt
  exact tickCounter_toInt _ (by omega) (by omega)

/-- The count a pause begins with. -/
theorem tickCounter_neg (pause : Ticks) :
    (BitVec.ofInt 17 (-(pause.toNat : Int))).toInt = -(pause.toNat : Int) := by
  have := pause.isLt
  exact tickCounter_toInt _ (by omega) (by omega)

/-! ### What ADV does to a transmission (R134) -/

/-- The ticks between two symbols (R136). -/
def interSymbolPause (c : EngCfg) : Nat := if c.alphabet = .chirp then c.pauseTicks.toNat else 0

theorem interSymbolPause_eq {c : EngCfg} (h : c.alphabet = .chirp ∧ 0 < c.pauseTicks.toNat) :
    interSymbolPause c = c.pauseTicks.toNat := if_pos h.1

theorem interSymbolPause_eq_zero {c : EngCfg} (h : ¬ (c.alphabet = .chirp ∧ 0 < c.pauseTicks.toNat)) :
    interSymbolPause c = 0 := by
  unfold interSymbolPause
  split
  · rename_i hchirp
    exact Nat.eq_zero_of_not_pos fun hpos => h ⟨hchirp, hpos⟩
  · rfl

/-- What an ADV makes of a transmission that satisfies the invariants. -/
inductive AdvMoves (s t : State.Of n) : Prop
  /-- The position moves one tick on in the same symbol or in the pause before it. -/
  | within (hlt : s.eng.tickCounter.toInt + 1 < s.eng.cfg.symbolTicks.toNat)
      (htx : t.eng.isTransmitting = true) (hk : t.eng.symbolIndex.val = s.eng.symbolIndex.val)
      (ht : t.eng.tickCounter.toInt = s.eng.tickCounter.toInt + 1) (answer : Answers s t .ok 1)
  /-- A symbol but the last is over: the next one, after the pause there is. -/
  | boundary (heq : s.eng.tickCounter.toInt + 1 = s.eng.cfg.symbolTicks.toNat)
      (hnotLast : s.eng.symbolIndex.val + 1 < nsym s.eng.cfg.alphabet)
      (htx : t.eng.isTransmitting = true) (hk : t.eng.symbolIndex.val = s.eng.symbolIndex.val + 1)
      (ht : t.eng.tickCounter.toInt = -(interSymbolPause s.eng.cfg : Int))
      (answer : Answers s t .ok 2)
  /-- The last symbol is over. -/
  | complete (heq : s.eng.tickCounter.toInt + 1 = s.eng.cfg.symbolTicks.toNat)
      (hlast : s.eng.symbolIndex.val + 1 = nsym s.eng.cfg.alphabet) (clear : TxClear t.eng)
      (silent : t.eng.currentFreq = 0) (hexists : t.eng.existsBit = s.eng.existsBit)
      (answer : Answers s t .ok 3)

theorem AdvArm.moves {s t : State.Of n} (h : AdvArm s t) (he : EngineOk s.eng)
    (htx : s.eng.isTransmitting = true) : AdvMoves s t := by
  obtain ⟨hk, hlow, hhigh⟩ := he.position htx
  obtain ⟨hnsym, -⟩ := nsym_le s.eng.cfg.alphabet
  cases h with
  | idle hidle => exact absurd hidle (by simp [htx])
  | pausing _ hneg =>
    exact .within (by omega) htx rfl (tickCounter_succ_of_neg hneg) (answers_respond _ _ _)
  | inside _ h0 hlt =>
    exact .within hlt (by simpa using htx) (by simp) (by simpa using tickCounter_of_lt h0 hlt)
      (by simp [Answers, TickOutcome.code])
  | complete _ h0 hle hlast =>
    exact .complete (by omega) hlast (txClear_clearTx _) (clearTx_command_zero_currentFreq s)
      (command_existsBit 0 s) (answers_respond_clearTx_command _ _ 0 s)
  | pause _ h0 hle hnotLast hp =>
    exact .boundary (by omega) (by omega) (by simpa using htx)
      (bump_val _ _ _ (by omega)) (by simpa [interSymbolPause_eq hp] using tickCounter_neg _)
      (by simp [Answers, TickOutcome.code])
  | next _ h0 hle hnotLast hp =>
    exact .boundary (by omega) (by omega) (by simpa using htx)
      (by simpa using bump_val _ _ _ (by omega)) (by simp [interSymbolPause_eq_zero hp])
      (by simp [Answers, TickOutcome.code])

/-! ### Phases (R142) -/

theorem phase_eq_inert_iff (e : Eng) :
    e.phase = .inert ↔ e.isTransmitting = false ∧ e.existsBit = false := by
  unfold Eng.phase
  split_ifs <;> simp_all

theorem phase_eq_idle_iff (e : Eng) :
    e.phase = .idle ↔ e.isTransmitting = false ∧ e.existsBit = true := by
  unfold Eng.phase
  split_ifs <;> simp_all

theorem phase_eq_sounding_iff (e : Eng) (k : Nat) (t : Int) :
    e.phase = .sounding k t ↔ e.isTransmitting = true ∧ 0 ≤ e.tickCounter.toInt ∧
      e.symbolIndex.val = k ∧ e.tickCounter.toInt = t := by
  unfold Eng.phase
  split_ifs <;> simp_all

theorem phase_eq_pausing_iff (e : Eng) (k : Nat) (t : Int) :
    e.phase = .pausing k t ↔ e.isTransmitting = true ∧ e.tickCounter.toInt < 0 ∧
      e.symbolIndex.val = k ∧ e.tickCounter.toInt = t := by
  unfold Eng.phase
  split_ifs <;> simp_all

/-- The rows of the table for a symbol. -/
theorem AdvMoves.of_sounding {s t : State.Of n} (h : AdvMoves s t) (he : EngineOk s.eng) {k : Nat} {τ : Int}
    (hphase : s.eng.phase = .sounding k τ) :
    let N := nsym s.eng.cfg.alphabet
    let T : Int := s.eng.cfg.symbolTicks.toNat
    let Q : Int := s.eng.cfg.pauseTicks.toNat
    let pause := s.eng.cfg.alphabet = .chirp ∧ 0 < Q
    (τ + 1 < T → t.eng.phase = .sounding k (τ + 1) ∧ Answers s t .ok 1) ∧
    (τ = T - 1 → k + 1 < N → ¬ pause → t.eng.phase = .sounding (k + 1) 0 ∧ Answers s t .ok 2) ∧
    (τ = T - 1 → k + 1 < N → pause → t.eng.phase = .pausing (k + 1) (-Q) ∧ Answers s t .ok 2) ∧
    (τ = T - 1 → k = N - 1 → t.eng.phase = .idle ∧ Answers s t .ok 3) := by
  obtain ⟨htx, h0, rfl, rfl⟩ := (phase_eq_sounding_iff _ k τ).mp hphase
  cases h with
  | within hlt htx' hk ht answer =>
    refine ⟨fun _ => ⟨?_, answer⟩, by omega, by omega, by omega⟩
    exact (phase_eq_sounding_iff _ _ _).mpr ⟨htx', by omega, hk, ht⟩
  | boundary heq hnotLast htx' hk ht answer =>
    refine ⟨by omega, fun _ _ hp => ⟨?_, answer⟩, fun _ _ hp => ⟨?_, answer⟩, by omega⟩
    · rw [interSymbolPause_eq_zero (by exact_mod_cast hp)] at ht
      exact (phase_eq_sounding_iff _ _ _).mpr ⟨htx', by omega, hk, ht⟩
    · rw [interSymbolPause_eq (by exact_mod_cast hp)] at ht
      exact (phase_eq_pausing_iff _ _ _).mpr ⟨htx', by omega, hk, ht⟩
  | complete heq hlast clear silent hexists answer =>
    refine ⟨by omega, by omega, by omega, fun _ _ => ⟨?_, answer⟩⟩
    exact (phase_eq_idle_iff _).mpr ⟨clear.1, hexists.trans (he.live htx)⟩

/-- The rows of the table for a pause. -/
theorem AdvMoves.of_pausing {s t : State.Of n} (h : AdvMoves s t) (he : EngineOk s.eng) {k : Nat} {τ : Int}
    (hphase : s.eng.phase = .pausing k τ) :
    (τ < -1 → t.eng.phase = .pausing k (τ + 1) ∧ Answers s t .ok 1) ∧
    (τ = -1 → t.eng.phase = .sounding k 0 ∧ Answers s t .ok 1) := by
  obtain ⟨htx, hneg, rfl, rfl⟩ := (phase_eq_pausing_iff _ k τ).mp hphase
  obtain ⟨hticks, -⟩ := (wfEng_iff _).mp (he.wellFormed (he.live htx))
  cases h with
  | within hlt htx' hk ht answer =>
    refine ⟨fun hτ => ⟨?_, answer⟩, fun hτ => ⟨?_, answer⟩⟩
    · exact (phase_eq_pausing_iff _ _ _).mpr ⟨htx', by omega, hk, ht⟩
    · exact (phase_eq_sounding_iff _ _ _).mpr ⟨htx', by omega, hk, by omega⟩
  | boundary heq => omega
  | complete heq => omega

/-- A phase that is neither inert nor idle is a transmission. -/
theorem transmitting_of_phase {e : Eng} (hinert : e.phase ≠ .inert) (hidle : e.phase ≠ .idle) :
    e.isTransmitting = true := by
  by_contra hnot
  have htx : e.isTransmitting = false := by simpa using hnot
  cases hexists : e.existsBit with
  | false => exact hinert ((phase_eq_inert_iff e).mpr ⟨htx, hexists⟩)
  | true => exact hidle ((phase_eq_idle_iff e).mpr ⟨htx, hexists⟩)

/-! ### The rest of a transmission (R140) -/

/-- The ADVs a transmission has left: to the end of its symbol, and then a pause and a symbol for each of the
others. -/
def advsLeft (e : Eng) : Int :=
  (e.cfg.symbolTicks.toNat - e.tickCounter.toInt) +
    ((nsym e.cfg.alphabet - 1 - e.symbolIndex.val : Nat) : Int) *
      (e.cfg.symbolTicks.toNat + interSymbolPause e.cfg)

/-- A response of an ADV that does not end the message. -/
def GoesOn (r : Word) : Prop := r = 0x00000001 ∨ r = 0x00000002

/-- `k` ADVs after `s` the transmission of `s` is active with `left` to go, and each was answered InProgress
or SymbolBoundary. -/
structure Sending (s : State.Of n) (k : Nat) (left : Int) (u : State.Of n) : Prop where
  ok : EngineOk u.eng
  active : u.eng.isTransmitting = true
  togo : advsLeft u.eng = left
  answers : ∃ rs, u.port.responses = s.port.responses ++ rs ∧ rs.length = k ∧ ∀ r ∈ rs, GoesOn r

/-- One ADV more was answered, and the transmission goes on. -/
theorem Sending.goes_on {s u t : State.Of n} {k : Nat} {left left' : Int} {v : Half}
    (h : Sending s k left u) (hok : EngineOk t.eng) (htx : t.eng.isTransmitting = true)
    (hleft : advsLeft t.eng = left') (hanswer : Answers u t .ok v)
    (hv : GoesOn (respWord .ok v)) : Sending s (k + 1) left' t := by
  obtain ⟨rs, hrs, hlength, hall⟩ := h.answers
  refine ⟨hok, htx, hleft, rs ++ [respWord .ok v], ?_, ?_, ?_⟩
  · rw [hanswer.1, hrs, List.append_assoc]
  · rw [List.length_append, hlength, List.length_singleton]
  · intro r hr
    obtain hr | rfl : r ∈ rs ∨ r = respWord .ok v := by simpa using hr
    · exact hall r hr
    · exact hv

/-- A transmission under way has an ADV left. -/
theorem advsLeft_pos {e : Eng} (he : EngineOk e) (htx : e.isTransmitting = true) : 0 < advsLeft e := by
  obtain ⟨-, -, hlt⟩ := he.position htx
  have hrest : 0 ≤ ((nsym e.cfg.alphabet - 1 - e.symbolIndex.val : Nat) : Int) *
    (e.cfg.symbolTicks.toNat + interSymbolPause e.cfg) := by positivity
  rw [advsLeft]
  linarith

/-- An ADV takes a transmission one tick nearer to its end, and the last one ends it. -/
theorem Sending.adv {s u : State.Of n} {k : Nat} {left : Int} (h : Sending s k left u) :
    ∃ t, execAdv u = .next t ∧
      ((1 < left ∧ Sending s (k + 1) (left - 1) t) ∨
       (left = 1 ∧ TxClear t.eng ∧ t.eng.currentFreq = 0 ∧ Answers u t .ok 3)) := by
  obtain ⟨t, harm⟩ := exists_advArm u
  have hok := execAdv_ok u t h.ok harm.execAdv_eq
  obtain ⟨hcfg, -⟩ := harm.keepsCfg
  refine ⟨t, harm.execAdv_eq, ?_⟩
  rw [← h.togo]
  cases harm.moves h.ok h.active with
  | within hlt htx hk ht answer =>
    have hleft : advsLeft t.eng = advsLeft u.eng - 1 := by
      rw [advsLeft, advsLeft, hcfg, hk, ht]
      ring
    have hpos := advsLeft_pos hok htx
    exact .inl ⟨by omega, h.goes_on hok htx hleft answer (.inl (by decide))⟩
  | boundary heq hnotLast htx hk ht answer =>
    have hsymbols : ((nsym u.eng.cfg.alphabet - 1 - u.eng.symbolIndex.val : Nat) : Int) =
        ((nsym u.eng.cfg.alphabet - 1 - (u.eng.symbolIndex.val + 1) : Nat) : Int) + 1 := by omega
    have hleft : advsLeft t.eng = advsLeft u.eng - 1 := by
      rw [advsLeft, advsLeft, hcfg, hk, ht, hsymbols, ← heq]
      ring
    have hpos := advsLeft_pos hok htx
    exact .inl ⟨by omega, h.goes_on hok htx hleft answer (.inr (by decide))⟩
  | complete heq hlast clear silent hexists answer =>
    refine .inr ⟨?_, clear, silent, answer⟩
    rw [advsLeft, ← hlast]
    simp [← heq]

/-- What a transmission has left when XMIT has started it: `8T` under Binary, `4T + 3Q` under Chirp. -/
theorem advsLeft_started (b : Byte) (s : State.Of n) :
    advsLeft (started b s).eng =
      (if s.eng.cfg.alphabet = .binary then 8 * s.eng.cfg.symbolTicks.toNat
       else 4 * s.eng.cfg.symbolTicks.toNat + 3 * s.eng.cfg.pauseTicks.toNat : Nat) := by
  rw [started_eng]
  cases halphabet : s.eng.cfg.alphabet
  · simp [advsLeft, planned, halphabet, nsym, interSymbolPause]
    ring
  · simp [advsLeft, planned, halphabet, nsym, interSymbolPause]
    ring

theorem acceptWord_adv (s : State) : acceptWord 0x12000000 s = execAdv s :=
  acceptWord_ok (i := .adv) s (by decide)

end Sys2Proof.Machine

namespace Sys2Proof.Proofs
open Sys2Proof.Machine

/-- Settles O24: arms A, B and C. -/
theorem advAwayFromBoundary : Obligations.AdvAwayFromBoundary := by
  intro s
  refine ⟨fun hidle => ?_, fun htx hneg => ?_, ?_⟩
  · exact ⟨_, execAdv_idle s hidle, keepsUnits_respond _ _ s, emits_nil_respond _ _ s,
      answers_respond _ _ s⟩
  · exact ⟨_, execAdv_pause s htx hneg, tickCounter_succ_of_neg hneg, rfl, rfl, rfl, rfl,
      emits_nil_respond _ _ _, answers_respond _ _ _⟩
  · intro hk htx next f h0 hlt hf0 hf1
    have hran := (EngineMoved.command_setPosition
      (plan s.eng.cfg (symbolAt s.freeCount s.eng s.eng.symbolIndex.val) next) s.eng.symbolIndex next
      s).respond TickOutcome.inProgress.code
    refine ⟨_, execAdv_inside s htx h0 hlt, ?_, ?_, ?_, hran.params, hran.broadcaster, hran.beacon,
      hran.events, hran.answer⟩
    · simpa using tickCounter_of_lt h0 hlt
    · rw [respond_eng, command_currentFreq, symbolAt_of_lt _ _ _ hk]
      exact narrowFreq_toNat _ _ _ hf0 hf1
    · rw [respond_eng, command_eng]
      rfl

/-- Settles O25: arms D, E and F. -/
theorem advAtBoundary : Obligations.AdvAtBoundary := by
  intro s htx h0 hle N paused
  have hboundary := execAdv_boundary s htx h0 hle
  obtain ⟨hN, -⟩ : N ≤ 8 ∧ 4 ≤ N := nsym_le s.eng.cfg.alphabet
  refine ⟨fun hlast => ?_, fun hnotLast hp => ?_, fun hk hnotLast hp => ?_⟩
  · rw [advBoundary_complete s hlast] at hboundary
    have hran := ((EngineMoved.command 0 s).clearTx).respond TickOutcome.messageComplete.code
    have hsilent := clearTx_command_zero_currentFreq s
    exact ⟨_, hboundary, txClear_clearTx _, hsilent, command_cfg 0 s, command_existsBit 0 s, hran.params,
      hran.broadcaster, hran.beacon, hran.emits_silence hsilent, hran.answer⟩
  · rw [advBoundary_pause s hnotLast.ne hp] at hboundary
    have hran := ((EngineMoved.command 0 s).setPosition (bump s.freeCount 0 s.eng.symbolIndex)
      (-(s.eng.cfg.pauseTicks.toNat : Int))).respond TickOutcome.symbolBoundary.code
    have hsilent : (command 0 s).eng.currentFreq = 0 := by simp
    refine ⟨_, hboundary, bump_val _ _ _ (by omega), tickCounter_neg _, hsilent, ?_, hran.params,
      hran.broadcaster, hran.beacon, hran.emits_silence hsilent, hran.answer⟩
    rw [respond_eng, setPosition, command_eng]
  · rw [advBoundary_next s hnotLast.ne hp] at hboundary
    have hran := (EngineMoved.command_setPosition (plan s.eng.cfg (symbolAt s.freeCount s.eng
      (bump s.freeCount 0 s.eng.symbolIndex).val) 0) (bump s.freeCount 0 s.eng.symbolIndex) 0
      s).respond TickOutcome.symbolBoundary.code
    have hbump : (bump s.freeCount 0 s.eng.symbolIndex).val = s.eng.symbolIndex.val + 1 :=
      bump_val _ _ _ (by omega)
    refine ⟨_, hboundary, by simpa using hbump, by simp, ?_, ?_, hran.params, hran.broadcaster,
      hran.beacon, hran.events, hran.answer⟩
    · rw [respond_eng, command_currentFreq, narrowFreq_plan_zero, hbump, symbolAt_of_lt _ _ _ hk]
    · rw [respond_eng, command_eng]
      rfl

/-- Settles O26: an engine that is not transmitting stays as it is; of a transmission `AdvMoves` gives the
phase that follows. -/
theorem advMovesPhase : Obligations.AdvMovesPhase := by
  intro s he N T Q pause
  obtain ⟨t, harm⟩ := exists_advArm s
  refine ⟨t, harm.execAdv_eq, ?_⟩
  cases htx : s.eng.isTransmitting with
  | false =>
    obtain rfl : respond .ok TickOutcome.idle.code s = t := by
      simpa using (execAdv_idle s htx).symm.trans harm.execAdv_eq
    have hanswer : Answers s (respond .ok TickOutcome.idle.code s) .ok 0 := answers_respond _ _ s
    exact ⟨fun h => ⟨h, hanswer⟩, fun h => ⟨h, hanswer⟩,
      fun k τ h => absurd ((phase_eq_sounding_iff _ k τ).mp h).1 (by simp [htx]),
      fun k τ h => absurd ((phase_eq_pausing_iff _ k τ).mp h).1 (by simp [htx])⟩
  | true =>
    have hmoves := harm.moves he htx
    exact ⟨fun h => absurd ((phase_eq_inert_iff _).mp h).1 (by simp [htx]),
      fun h => absurd ((phase_eq_idle_iff _).mp h).1 (by simp [htx]),
      fun k τ h => hmoves.of_sounding he h, fun k τ h => hmoves.of_pausing he h⟩

/-- Settles O27: CREATE and DESTROY lead to one phase from every state; XMIT and STOP ask whether an engine
exists and transmits, which is what the phase says. -/
theorem controlMovesPhase : Obligations.ControlMovesPhase := by
  intro s he
  refine ⟨fun hwf => ?_, fun b => ?_, ?_, ?_⟩
  · exact ⟨_, execCreate_wf s hwf, (phase_eq_idle_iff _).mpr ⟨rfl, rfl⟩,
      ((created_moved s).respond 0).answer⟩
  · cases htx : s.eng.isTransmitting with
    | true =>
      exact ⟨_, execXmit_busy b s (he.live htx) htx,
        fun h => absurd ((phase_eq_inert_iff _).mp h).1 (by simp [htx]),
        fun h => absurd ((phase_eq_idle_iff _).mp h).1 (by simp [htx]),
        fun _ _ => ⟨rfl, answers_respond _ _ s⟩⟩
    | false =>
      have hnone (h : s.eng.phase ≠ .inert) (h' : s.eng.phase ≠ .idle) : False := by
        simpa [htx] using transmitting_of_phase h h'
      cases hexists : s.eng.existsBit with
      | false =>
        exact ⟨_, execXmit_inert b s hexists, fun h => ⟨h, answers_respond _ _ s⟩,
          fun h => absurd ((phase_eq_idle_iff _).mp h).2 (by simp [hexists]),
          fun h h' => (hnone h h').elim⟩
      | true =>
        refine ⟨_, execXmit_idle b s hexists htx,
          fun h => absurd ((phase_eq_inert_iff _).mp h).2 (by simp [hexists]),
          fun _ => ⟨?_, ((started_moved b s).respond 0).answer⟩, fun h h' => (hnone h h').elim⟩
        rw [phase_eq_sounding_iff, respond_eng, started_eng]
        exact ⟨rfl, le_rfl, rfl, rfl⟩
  · have hexists : (clearTx (command 0 s)).eng.existsBit = s.eng.existsBit := command_existsBit 0 s
    have hanswer := answers_respond_clearTx_command .ok (flagValue s.eng.isTransmitting) 0 s
    refine ⟨_, execStop_eq s, fun h => ?_, fun h => ?_, fun h h' => ?_⟩
    · obtain ⟨htx, hnone⟩ := (phase_eq_inert_iff _).mp h
      rw [htx] at hanswer
      exact ⟨(phase_eq_inert_iff _).mpr ⟨rfl, hexists.trans hnone⟩, by rwa [htx]⟩
    · obtain ⟨htx, hsome⟩ := (phase_eq_idle_iff _).mp h
      rw [htx] at hanswer
      exact ⟨(phase_eq_idle_iff _).mpr ⟨rfl, hexists.trans hsome⟩, by rwa [htx]⟩
    · have htx := transmitting_of_phase h h'
      rw [htx] at hanswer
      exact ⟨(phase_eq_idle_iff _).mpr ⟨rfl, hexists.trans (he.live htx)⟩, by rwa [htx]⟩
  · exact ⟨_, execDestroy_eq s, (phase_eq_inert_iff _).mpr ⟨rfl, rfl⟩,
      ((destroyed_moved s).respond 0).answer⟩

/-- Settles O32: XMIT leaves the whole length to go, and each ADV takes one tick of it. -/
theorem transmissionLength : Obligations.TransmissionLength := by
  intro b s s1 he hexists htx hxmit T Q len
  have hok : EngineOk s1.eng := execXmit_ok b s s1 he hxmit
  have hs1 : s1 = respond .ok 0 (started b s) := by
    simpa using hxmit.symm.trans (execXmit_idle b s hexists htx)
  have hlen : advsLeft s1.eng = len := hs1 ▸ advsLeft_started b s
  have hactive : s1.eng.isTransmitting = true := by
    rw [hs1, respond_eng, started_eng]
    rfl
  have hpos := advsLeft_pos hok hactive
  have hstart : Sending s1 0 len s1 := ⟨hok, hactive, hlen, [], by simp, rfl, by simp⟩
  have hrun := runWords_replicate (w := 0x12000000) (fun k => Sending s1 k (len - k)) (len - 1)
    (by simpa using hstart) (fun k u hk hu => by
      rw [acceptWord_adv]
      obtain ⟨t, ht, ⟨-, hsending⟩ | ⟨hlast, -⟩⟩ := hu.adv
      · refine ⟨t, ht, ?_⟩
        push_cast
        rwa [← sub_sub]
      · omega)
  refine ⟨fun k hk => ?_, ?_⟩
  · obtain ⟨t, ht, hsending⟩ := hrun k (by omega)
    obtain ⟨rs, hrs, hlength, hall⟩ := hsending.answers
    refine ⟨t, ht, hsending.active, ?_, ?_⟩
    · rw [hrs, List.length_append, hlength]
    · rw [hrs, List.drop_left]
      exact hall
  · obtain ⟨u, hu, hsending⟩ := hrun (len - 1) le_rfl
    obtain ⟨t, ht, ⟨hmore, -⟩ | ⟨-, hclear, hsilent, hanswer⟩⟩ := hsending.adv
    · omega
    · refine ⟨t, ?_, hclear, hsilent, ?_⟩
      · rw [show len = len - 1 + 1 by omega]
        exact runWords_replicate_succ hu ((acceptWord_adv u).trans ht)
      · rw [hanswer.1, List.getLast?_concat]
        decide

end Sys2Proof.Proofs
end

section
/-! PROOF. The symbol codec, the frequency planner, and a PSET of the beacon's mask for any number of channels
(41_symbol_codec.md R121 to R128; 40_parameters.md R110). -/

namespace Sys2Proof.Machine

variable {n : Nat}

/-! ### The codec (R121, R122, R124) -/

theorem encodeBinary_get (b : Byte) (k : Fin 8) :
    (encodeBinary b)[k] = if b.getLsbD (7 - k.val) then .high else .low := by
  simp [encodeBinary]

theorem encodeChirp_get (b : Byte) (k : Fin 8) :
    (encodeChirp b)[k] =
      if k.val < 4 then Symbol.ofBits (b.getLsbD (7 - 2 * k.val)) (b.getLsbD (6 - 2 * k.val))
      else .low := by
  simp [encodeChirp]

/-- A symbol's code is its two bits (30_encoding.md R88). -/
theorem code_ofBits_bits (hi lo : Bool) :
    (Symbol.ofBits hi lo).code[0] = lo ∧ (Symbol.ofBits hi lo).code[1] = hi := by
  cases hi <;> cases lo <;> decide

theorem code_encodeChirp (b : Byte) {k : Fin 8} (hk : k.val < 4) :
    (encodeChirp b)[k].code = b.extractLsb' (6 - 2 * k.val) 2 := by
  obtain ⟨hlo, hhi⟩ := code_ofBits_bits (b.getLsbD (7 - 2 * k.val)) (b.getLsbD (6 - 2 * k.val))
  rw [encodeChirp_get, if_pos hk]
  ext i hi
  rw [BitVec.getElem_extractLsb']
  obtain rfl | rfl : i = 0 ∨ i = 1 := by omega
  · rw [hlo, add_zero]
  · rw [hhi, show 7 - 2 * k.val = 6 - 2 * k.val + 1 by omega]

/-- The digit the decoder of R124 reads of a Binary symbol is the bit it carries. -/
theorem high_code_bit (k : Nat) (b : Byte) :
    (if (if b.getLsbD k then Symbol.high else .low) = .high then 1 else 0) = b.toNat / 2 ^ k % 2 := by
  rw [BitVec.getLsbD, Nat.testBit_eq_decide_div_mod_eq]
  have := Nat.mod_two_eq_zero_or_one (b.toNat / 2 ^ k)
  rcases this with h | h <;> simp [h]

theorem decodeBinary_encodeBinary (b : Byte) : decodeBinary (encodeBinary b) = b.toNat := by
  have hdigits : b.toNat % 2 ^ 8 = b.toNat := Nat.mod_eq_of_lt b.isLt
  simp only [decodeBinary, encodeBinary_get, high_code_bit]
  simp only [Nat.mod_pow_succ, pow_zero, Nat.mod_one] at hdigits
  simp [List.finRange_succ] at hdigits ⊢
  linarith

/-- The digit the decoder of R124 reads of a Chirp symbol, in base 4. -/
theorem code_encodeChirp_toNat (b : Byte) (k : Fin 4) :
    (encodeChirp b)[k.val].code.toNat = b.toNat / 4 ^ (3 - k.val) % 4 := by
  have h : (encodeChirp b)[k.val].code = _ := code_encodeChirp b (k := k.castLE (by decide)) k.isLt
  rw [h, BitVec.extractLsb'_toNat, Nat.shiftRight_eq_div_pow, Fin.val_castLE,
    show 6 - 2 * k.val = 2 * (3 - k.val) by omega, pow_mul]
  rfl

theorem decodeChirp_encodeChirp (b : Byte) : decodeChirp (encodeChirp b) = b.toNat := by
  have hdigits : b.toNat % 4 ^ 4 = b.toNat := Nat.mod_eq_of_lt b.isLt
  simp only [decodeChirp, code_encodeChirp_toNat]
  simp only [Nat.mod_pow_succ, pow_zero, Nat.mod_one] at hdigits
  simp [List.finRange_succ] at hdigits ⊢
  linarith

/-! ### The planner (R126 to R128) -/

/-- The ceiling of a quotient times the divisor reaches the dividend and passes it by less than the
divisor. -/
theorem ceil_bounds (a : Nat) {T : Nat} (hT : 1 ≤ T) :
    a ≤ (a + T - 1) / T * T ∧ (a + T - 1) / T * T ≤ a + (T - 1) := by
  have hdiv := Nat.div_add_mod (a + T - 1) T
  have hmod := Nat.mod_lt (a + T - 1) hT
  rw [mul_comm] at hdiv
  omega

/-- The ramps are monotone (R128). -/
theorem plan_up_le_succ (c : EngCfg) (t : Int) : plan c .up t ≤ plan c .up (t + 1) := by
  simp only [plan, mul_add, mul_one]
  omega

theorem plan_down_succ_le (c : EngCfg) (t : Int) : plan c .down (t + 1) ≤ plan c .down t := by
  simp only [plan, mul_add, mul_one]
  omega

end Sys2Proof.Machine

namespace Sys2Proof.Proofs
open Sys2Proof.Machine

/-- Settles O33: each entry of the plan is the symbol of its bits. -/
theorem codecOrder : Obligations.CodecOrder := by
  intro b
  refine ⟨encodeBinary_get b, fun k hk => code_encodeChirp b hk, fun k hk => ?_⟩
  rw [encodeSymbols, encodeChirp_get, if_neg (by omega)]

/-- Settles O34: the byte is the sum of its digits, in base 2 and in base 4. -/
theorem codecRoundTrip : Obligations.CodecRoundTrip :=
  fun b => ⟨decodeBinary_encodeBinary b, decodeChirp_encodeChirp b⟩

/-- Settles O35: the slope is a ceiling, taken in 16 bits that hold it. -/
theorem slopeIsCeiling : Obligations.SlopeIsCeiling := by
  intro low high ticks hticks hle s
  have hs : s = _ := slopeOf_toNat low high ticks hticks
  rw [hs]
  exact ceil_bounds _ hticks

/-- Settles O36: the planner's range, and a ramp's next value one slope on. -/
theorem plannedFrequenciesInRange : Obligations.PlannedFrequenciesInRange := by
  intro c sym t hwf h0 hlt hflat
  obtain ⟨hlow, hhigh⟩ := plan_range c sym t hwf h0 hlt hflat
  exact ⟨hlow, hhigh, plan_up_le_succ c t, plan_down_succ_le c t⟩

/-- Settles O58: the word decodes exactly if the mask is legal, and PSET writes the one register. -/
theorem psetMaskForAnyParameters : Obligations.PsetMaskForAnyParameters := by
  intro p s v rest hinput
  have hstep : stepFor p s = acceptWith p (execFor p) (encode (.pset 10 v)) (popInput rest s) :=
    stepWith_input (execFor p) s hinput
  have hwf : (Instr.pset 10 v).wfFor p = true ↔ v.toNat < 2 ^ p.nch := by
    simp [Instr.wfFor, wfParamIndex, wfParamValue_iff, Config.nparam]
  rw [hstep]
  by_cases hlegal : v.toNat < 2 ^ p.nch
  · have hd := (decodeFor_eq_ok p (encode (.pset 10 v)) (.pset 10 v)).mpr ⟨hwf.mpr hlegal, rfl⟩
    have hno : ¬ PsetIllegal p.nch 10 v := by
      simp [PsetIllegal]
      omega
    have hexec : execFor p (.pset 10 v) (popInput rest s) = _ :=
      execPset_legal (popInput rest s) (by decide) hno
    rw [acceptWith_ok _ _ hd, hexec]
    simp only [if_pos hlegal]
    refine ⟨_, rfl, rfl, rfl, rfl, emits_nil_respond _ _ _, answers_respond _ _ _, fun j => ?_⟩
    simp only [respond_P, writeParam_get, Fin.ext_iff]
    rfl
  · have hillegal : WordIllegal p (encode (.pset 10 v)) := by
      rw [WordIllegal, opField_encode, idxField_encode, dataField_encode]
      exact .inr (.inr (.inr ⟨rfl, .inr ⟨rfl, Nat.le_of_not_lt hlegal⟩⟩))
    obtain ⟨e, hd⟩ := hillegal.rejected
    obtain ⟨hanswer, ⟨hP, heng, hbc, hbeacon⟩, hevents⟩ :=
      onlyAnswersError_answerError .illegal (popInput rest s)
    rw [acceptWith_error _ _ hd]
    simp only [if_neg hlegal]
    exact ⟨_, rfl, heng, hbc, hbeacon, hevents, hanswer, hP⟩

end Sys2Proof.Proofs
end
